-- ==== Sys2Proof/Word.lean ====
section
/-! DEFINITION. The machine's word types (spec/00_scope.md R7, R9): `u8`, `u9` and the index of a general register. -/

namespace Sys2Proof

/-- `u8`: every register value, memory cell and operand byte (R9). -/
abbrev Byte := BitVec 8

/-- `u9`: the program counter, which holds 0..256 (R24). -/
abbrev Pc := BitVec 9

/-- A general register's index, 0..7 (R20). -/
abbrev RegIndex := Fin 8

end Sys2Proof
end

