-- ==== Sys2Proof/Config.lean ====
section
/-! DEFINITION. The parameters of this hardware (spec/00_scope.md R7) and the type of its opcode table (spec/30_encoding.md R74, R75). The table the machine runs with is `Sys2Proof.opcodeMap`, in Decode.lean. -/

namespace Sys2Proof

/-- `NREGS` (R7). -/
def Config.nregs : Nat := 8

/-- `MEMSIZE`: addresses 0..255 (R7, R50). -/
def Config.memSize : Nat := 256

/-- `SP_INDEX`: register 7 is the stack pointer (R7, R23). -/
abbrev Config.spIndex : RegIndex := 7

/-- `SP_RESET` (R7, R23). -/
def Config.spReset : Byte := 0xF4

/-- `PC_RESET` (R7, R24). -/
def Config.pcReset : Pc := 0

/-- `FETCH_WINDOW`: bytes read by one fetch (R7, R90). -/
def Config.fetchWindow : Nat := 3

/-- `OPCODE_MAP` (R7, R74): the byte value of every instruction, as a configuration table, so that a
correction changes the table and not the semantics. -/
structure OpcodeMap where
  hlt : Byte
  ldi : Byte
  prn : Byte
  st : Byte
  push : Byte
  pop : Byte
  call : Byte
  ret : Byte
  jmp : Byte
  jeq : Byte
  jne : Byte
  add : Byte
  addi : Byte
  sub : Byte
  mul : Byte
  cmp : Byte
  deriving DecidableEq, Repr

end Sys2Proof
end

