-- ==== Sys2Proof/Syntax.lean ====
section
/-! DEFINITION. The instructions (spec/opcode_table.json, all 16 rows), the decoder's result (spec/30_encoding.md R72) and the fault causes (spec/60_exceptions.md R151). -/

namespace Sys2Proof

/-- One constructor per row of `spec/opcode_table.json`. An operand is the operand byte itself (R70, R73):
whether a register index is in 0..7 is checked when the instruction runs (R73, R99), so an instruction
with a bad index is still an instruction. -/
inductive Instr where
  | hlt
  | ldi (r imm : Byte)
  | prn (r : Byte)
  | st (a b : Byte)
  | push (r : Byte)
  | pop (r : Byte)
  | call (r : Byte)
  | ret
  | jmp (r : Byte)
  | jeq (r : Byte)
  | jne (r : Byte)
  | add (a b : Byte)
  | addi (r imm : Byte)
  | sub (a b : Byte)
  | mul (a b : Byte)
  | cmp (a b : Byte)
  deriving DecidableEq, Repr

/-- What the decoder yields for one opcode byte (R72). -/
structure Decoded where
  count : BitVec 2
  isAlu : Bool
  setsPc : Bool
  id : BitVec 4
  key : Byte
  deriving DecidableEq, Repr

/-- The causes of the Faulted state, under the names of R151. -/
inductive FaultCause where
  /-- Code 1: raised by the fetch when `p_pc + 2 > 255` (R91, R154). -/
  | fetchOutOfRange
  /-- Code 2: raised at dispatch when bit 5 is clear and the byte has no general handler (R152). -/
  | unsupportedOperation
  /-- Code 3: raised at dispatch when bit 5 is set and the byte has no ALU handler (R153). -/
  | unsupportedAluOperation
  /-- Code 4: raised by a register operand byte above 7 (R155). -/
  | registerIndexOutOfRange
  /-- Code 5: raised by PUSH and CALL at SP = 0 (R156). -/
  | stackOverflow
  /-- Code 6: raised by POP and RET at SP = 255 (R157). -/
  | stackUnderflow
  /-- Code 7: raised by a read of an unwritten register (R22, R158). -/
  | unwrittenRegister
  /-- Code 8: raised by JEQ and JNE when FL is unwritten (R28, R158). -/
  | unwrittenFlags
  /-- Code 9: raised by a data access above address 255; no instruction can form one (R52, R159). -/
  | memoryAddressOutOfRange
  deriving DecidableEq, Repr

end Sys2Proof
end

