-- ==== Sys2Proof/WellFormed.lean ====
section
/-! DEFINITION. Well-formed instructions: every register operand byte is an index 0..7 (spec/30_encoding.md R73). An immediate may be any byte. -/

namespace Sys2Proof

/-- The operand bytes an instruction uses as register indices, operand_a first (R73's table). -/
def Instr.registerOperands : Instr → List Byte
  | .hlt => []
  | .ldi r _ => [r]
  | .prn r => [r]
  | .st a b => [a, b]
  | .push r => [r]
  | .pop r => [r]
  | .call r => [r]
  | .ret => []
  | .jmp r => [r]
  | .jeq r => [r]
  | .jne r => [r]
  | .add a b => [a, b]
  | .addi r _ => [r]
  | .sub a b => [a, b]
  | .mul a b => [a, b]
  | .cmp a b => [a, b]

/-- Every register operand names one of the eight registers (R73). -/
def Instr.wellFormed (i : Instr) : Bool :=
  i.registerOperands.all (fun b => b.toNat < Config.nregs)

/-- The operand byte that names register `r`. -/
def regByte (r : RegIndex) : Byte := BitVec.ofNat 8 r.val

end Sys2Proof
end

