-- ==== Sys2Proof/Decode.lean ====
section
/-! DEFINITION. The opcode table (spec/30_encoding.md R74, R75), the decoder (R72), the handler tables (spec/40_engine.md R93) and the encoder (R70). -/

namespace Sys2Proof

/-- The LS-8 byte values of R74, with `ADDI_OPCODE` left as the open parameter it is (R75).
PRESUMED (log entry 7): the spec takes the fifteen values from general knowledge. -/
def ls8Map (addiOpcode : Byte) : OpcodeMap where
  hlt := 0x01
  ldi := 0x82
  prn := 0x47
  st := 0x84
  push := 0x45
  pop := 0x46
  call := 0x50
  ret := 0x11
  jmp := 0x54
  jeq := 0x55
  jne := 0x56
  add := 0xA0
  addi := addiOpcode
  sub := 0xA1
  mul := 0xA2
  cmp := 0xA7

/-- The table the machine's own step runs with.
DESIGN CHOICE (log entry 6): `ADDI_OPCODE` is the spec's example default 0xA5. -/
def opcodeMap : OpcodeMap := ls8Map 0xA5

/-- The decoder (R72): total over all byte values, raising nothing. -/
def decodeOpcode (ir : Byte) : Decoded where
  count := ir.extractLsb' 6 2
  isAlu := ir.getLsbD 5
  setsPc := ir.getLsbD 4
  id := ir.extractLsb' 0 4
  key := ir

/-- `GENERAL_TABLE` (R93): from the whole opcode byte to the handler, given `operand_a` and `operand_b`. -/
def generalTable (m : OpcodeMap) : List (Byte × (Byte → Byte → Instr)) :=
  [(m.hlt, fun _ _ => .hlt), (m.ldi, fun a b => .ldi a b), (m.prn, fun a _ => .prn a),
   (m.st, fun a b => .st a b), (m.push, fun a _ => .push a), (m.pop, fun a _ => .pop a),
   (m.call, fun a _ => .call a), (m.ret, fun _ _ => .ret), (m.jmp, fun a _ => .jmp a),
   (m.jeq, fun a _ => .jeq a), (m.jne, fun a _ => .jne a)]

/-- `ALU_TABLE` (R93). -/
def aluTable (m : OpcodeMap) : List (Byte × (Byte → Byte → Instr)) :=
  [(m.add, fun a b => .add a b), (m.addi, fun a b => .addi a b), (m.sub, fun a b => .sub a b),
   (m.mul, fun a b => .mul a b), (m.cmp, fun a b => .cmp a b)]

/-- Dispatch (R93): bit 5 alone chooses the table, and the whole byte is the key. A byte with no handler is
rejected by the cause of R152 or R153. -/
def dispatch (m : OpcodeMap) (d : Decoded) (a b : Byte) : Except FaultCause Instr :=
  if d.isAlu then
    match (aluTable m).lookup d.key with
    | some handler => .ok (handler a b)
    | none => .error .unsupportedAluOperation
  else
    match (generalTable m).lookup d.key with
    | some handler => .ok (handler a b)
    | none => .error .unsupportedOperation

/-- Decode and dispatch of one fetched window under the opcode table `m`. -/
def decodeWith (m : OpcodeMap) (ir a b : Byte) : Except FaultCause Instr :=
  dispatch m (decodeOpcode ir) a b

/-- Decode and dispatch of one fetched window under the machine's table. -/
def decode (ir a b : Byte) : Except FaultCause Instr := decodeWith opcodeMap ir a b

/-- The bytes of an instruction (R70): the opcode, then its operand bytes. -/
def encodeWith (m : OpcodeMap) : Instr → List Byte
  | .hlt => [m.hlt]
  | .ldi r imm => [m.ldi, r, imm]
  | .prn r => [m.prn, r]
  | .st a b => [m.st, a, b]
  | .push r => [m.push, r]
  | .pop r => [m.pop, r]
  | .call r => [m.call, r]
  | .ret => [m.ret]
  | .jmp r => [m.jmp, r]
  | .jeq r => [m.jeq, r]
  | .jne r => [m.jne, r]
  | .add a b => [m.add, a, b]
  | .addi r imm => [m.addi, r, imm]
  | .sub a b => [m.sub, a, b]
  | .mul a b => [m.mul, a, b]
  | .cmp a b => [m.cmp, a, b]

/-- The bytes of an instruction under the machine's table. -/
def encode (i : Instr) : List Byte := encodeWith opcodeMap i

/-- Decoding a byte list: the fetch always reads three bytes (R90), so fewer give no instruction. -/
def decodeBytesWith (m : OpcodeMap) : List Byte → Except FaultCause Instr
  | ir :: a :: b :: _ => decodeWith m ir a b
  | _ => .error .fetchOutOfRange

/-- One row of R74: the byte and what its bits must say. -/
structure OpcodeRow where
  byte : Byte
  count : BitVec 2
  isAlu : Bool
  setsPc : Bool
  deriving DecidableEq, Repr

/-- The sixteen rows of R74 with the fields each instruction needs (R76): its operand count, whether it is an
ALU operation, whether it sets the PC. -/
def opcodeRows (m : OpcodeMap) : List OpcodeRow :=
  [⟨m.hlt, 0, false, false⟩, ⟨m.ldi, 2, false, false⟩, ⟨m.prn, 1, false, false⟩, ⟨m.st, 2, false, false⟩,
   ⟨m.push, 1, false, false⟩, ⟨m.pop, 1, false, false⟩, ⟨m.call, 1, false, true⟩, ⟨m.ret, 0, false, true⟩,
   ⟨m.jmp, 1, false, true⟩, ⟨m.jeq, 1, false, true⟩, ⟨m.jne, 1, false, true⟩, ⟨m.add, 2, true, false⟩,
   ⟨m.addi, 2, true, false⟩, ⟨m.sub, 2, true, false⟩, ⟨m.mul, 2, true, false⟩, ⟨m.cmp, 2, true, false⟩]

/-- An opcode table that meets every structural fact the source states (R75, R76): no two instructions share a
byte, and each byte's fields say what its instruction needs. -/
abbrev OpcodeMap.legal (m : OpcodeMap) : Prop :=
  ((opcodeRows m).map (·.byte)).Nodup ∧
  ∀ row ∈ opcodeRows m, (decodeOpcode row.byte).count = row.count ∧
    (decodeOpcode row.byte).isAlu = row.isAlu ∧ (decodeOpcode row.byte).setsPc = row.setsPc

/-- Byte `k` of an instruction numbered as `spec/opcode_table.json` numbers it: bit 0 is the least significant
bit of the first byte, a later byte's bits count on from it, and every bit from `nbits` up is 0. -/
def tableByte (nbits w k : Nat) : Byte := BitVec.ofNat 8 (w % 2 ^ nbits / 2 ^ (8 * k))

/-- The instruction the decoder reads from a table word, if it reads one. -/
def decodeTableWord (nbits w : Nat) : Option Instr :=
  match decode (tableByte nbits w 0) (tableByte nbits w 1) (tableByte nbits w 2) with
  | .ok i => some i
  | .error _ => none

end Sys2Proof
end

