-- ==== Sys2Proof/Machine/State.lean ====
section
/-! DEFINITION. The machine's state (spec/10_state.md) as plain data, its reset value (R35), and the reasons a step can stop. -/

namespace Sys2Proof.Machine

/-- The engine's run state (R30, R150). Halted and Faulted are terminal (R97). -/
inductive RunState where
  | running
  | halted
  | faulted (cause : FaultCause)
  deriving DecidableEq, Repr

/-- The memory: cells at strictly rising addresses, none equal to what an unlisted address reads as. The
form is `Memory.wf` in Ops.lean. -/
abbrev Memory := List Host.Cell

/-- Everything the spec gives the machine (spec/10_state.md). -/
structure State where
  /-- `x[0..7]`; `x[7]` is SP (R20, R23). -/
  x : Vector Byte 8
  /-- The written mark of each register (R22, R33). -/
  xWritten : Vector Bool 8
  /-- The program counter, 0..256 (R24). -/
  pc : Pc
  /-- FL: E = bit 0, G = bit 1, L = bit 2 (R26). -/
  fl : Byte
  /-- FL's written mark (R28, R33). -/
  flWritten : Bool
  /-- The 256 cells of memory (R50). -/
  mem : Memory
  /-- Running, Halted or Faulted (R30). -/
  run : RunState
  /-- The values emitted by PRN, the earliest first (R32). -/
  output : List Byte
  /-- The fetched opcode byte (R31). -/
  ir : Byte
  /-- The byte fetched at `p_pc + 1` (R31). -/
  operandA : Byte
  /-- The byte fetched at `p_pc + 2` (R31). -/
  operandB : Byte
  deriving DecidableEq, Repr

/-- The reasons a step gives no next state. The spec's own faults are not among them: they lead to the state
Faulted(cause), which is a next state (R150, log entry 4). -/
inductive Fault where
  /-- Raised by `step` alone, in state Halted, where the core takes no step (R97). Safe: the machine does nothing
  there (log entry 5). -/
  | coreHalted
  /-- Raised by `step` alone, in state Faulted(cause), where the core takes no step (R97). Safe: the machine does
  nothing there (log entry 5). -/
  | coreFaulted (cause : FaultCause)
  deriving DecidableEq, Repr

/-- The reasons the model gives an instruction no meaning. The core has no refusal outcome (R96). -/
inductive Refusal where
  /-- Raised by an arm of `exec` that has no meaning yet; no arm raises it. Safe. -/
  | notModelled (mnemonic : String)
  deriving DecidableEq, Repr

/-- The state right after reset (R35, R180). DESIGN CHOICE: the values 0 of R0..R6 (log entry 1) and of FL
(log entry 2), which stand behind clear written marks, and of the latches (log entry 3), which every fetch
overwrites before they are read. -/
def State.reset : State where
  x := #v[0, 0, 0, 0, 0, 0, 0, Config.spReset]
  xWritten := #v[false, false, false, false, false, false, false, true]
  pc := Config.pcReset
  fl := 0
  flWritten := false
  mem := []
  run := .running
  output := []
  ir := 0
  operandA := 0
  operandB := 0

end Sys2Proof.Machine
end

