-- ==== Sys2Proof/Machine/Ops.lean ====
section
/-! DEFINITION. The named operations over memory, registers, flags, the program counter, the output stream and the stack, and taking a fault (spec/00_scope.md R9, spec/20_memory.md, spec/60_exceptions.md R150). -/

namespace Sys2Proof.Machine

/-! ### Memory (R50, R52) -/

/-- What an unlisted cell reads as: memory is zero-filled (R50, R35). -/
def Memory.unlisted : Byte := 0x00

/-- The byte at an address. -/
def Memory.read : Memory → Nat → Byte
  | [], _ => Memory.unlisted
  | c :: m, a => if c.1 = a then c.2 else Memory.read m a

/-- Write a byte at an address, keeping the canonical form. -/
def Memory.write : Memory → Nat → Byte → Memory
  | [], a, v => if v = Memory.unlisted then [] else [(a, v)]
  | c :: m, a, v =>
    if a < c.1 then (if v = Memory.unlisted then c :: m else (a, v) :: c :: m)
    else if a = c.1 then (if v = Memory.unlisted then m else (a, v) :: m)
    else c :: Memory.write m a v

/-- The canonical form: addresses strictly rising and in 0..255, and no cell equal to what an unlisted
address reads as. -/
abbrev Memory.wf (m : Memory) : Prop :=
  m.Pairwise (fun c d => c.1 < d.1) ∧ ∀ c ∈ m, c.1 < Config.memSize ∧ c.2 ≠ Memory.unlisted

/-- Consecutive bytes written from an address upward: what the host's load does (R183). -/
def Memory.writeBytes : Memory → Nat → List Byte → Memory
  | m, _, [] => m
  | m, a, v :: vs => Memory.writeBytes (Memory.write m a v) (a + 1) vs

/-- `MemRead(a, 1)` (R52). -/
def memRead (a : Nat) (s : State) : Except FaultCause Byte :=
  if a > 255 then .error .memoryAddressOutOfRange else .ok (Memory.read s.mem a)

/-- `mem[a] <- v`. -/
def storeByte (a : Nat) (v : Byte) (s : State) : State := { s with mem := Memory.write s.mem a v }

/-- `MemWrite(a, 1, v)` (R52). -/
def memWrite (a : Nat) (v : Byte) (s : State) : Except FaultCause State :=
  if a > 255 then .error .memoryAddressOutOfRange else .ok (storeByte a v s)

/-! ### Registers (R20, R22) -/

/-- The stored value of register `r`, whatever its written mark. -/
def State.reg (s : State) (r : RegIndex) : Byte := s.x[r.val]

/-- The written mark of register `r` (R33). -/
def State.isWritten (s : State) (r : RegIndex) : Bool := s.xWritten[r.val]

/-- Reading `x[r]`: an unwritten register faults (R22, R158). -/
def readReg (r : RegIndex) (s : State) : Except FaultCause Byte :=
  if s.isWritten r then .ok (s.reg r) else .error .unwrittenRegister

/-- `x[r] <- v`: the register becomes written (R22). -/
def writeReg (r : RegIndex) (v : Byte) (s : State) : State :=
  { s with x := s.x.set r.val v, xWritten := s.xWritten.set r.val true }

/-- Reading SP, the storage of `x[7]` (R23). -/
def readSp (s : State) : Except FaultCause Byte := readReg Config.spIndex s

/-- `SP <- v`. -/
def writeSp (v : Byte) (s : State) : State := writeReg Config.spIndex v s

/-! ### Flags register (R26, R28) -/

/-- Reading FL: an unwritten FL faults (R28, R158). -/
def readFl (s : State) : Except FaultCause Byte :=
  if s.flWritten then .ok s.fl else .error .unwrittenFlags

/-- `FL <- v`: the whole of FL is written, and it becomes written (R27, R28). -/
def writeFl (v : Byte) (s : State) : State := { s with fl := v, flWritten := true }

/-! ### Program counter, output, run state -/

/-- `pc <- v` for a byte `v`: an absolute target, zero-extended, unchecked (R135). -/
def jumpTo (v : Byte) (s : State) : State := { s with pc := v.setWidth 9 }

/-- `pc <- p_pc + 2`, the not-taken path of JEQ and JNE, in u9 arithmetic (R133, R134; log entry 8). -/
def skipJump (s : State) : State := { s with pc := s.pc + 2 }

/-- `p_pc + 2` as the byte CALL pushes (R130). It fits whenever the fetch was in range (R91; log entry 8). -/
def returnAddress (s : State) : Byte := BitVec.ofNat 8 (s.pc.toNat + 2)

/-- `Emit(v)`: append to the output stream (R112). -/
def emit (v : Byte) (s : State) : State := { s with output := s.output ++ [v] }

/-- `Halt()` (R110). -/
def halt (s : State) : State := { s with run := .halted }

/-! ### The stack (R120, R121) -/

/-- The push of PUSH and CALL: SP = 0 faults; otherwise SP goes down by one and `v` is stored there. -/
def pushByte (v : Byte) (s : State) : Except FaultCause State := do
  let sp ← readSp s
  if sp = 0 then .error .stackOverflow
  else memWrite (sp - 1).toNat v (writeSp (sp - 1) s)

/-- The pop of POP and RET: SP = 255 faults; otherwise the byte at SP is read and SP goes up by one. -/
def popByte (s : State) : Except FaultCause (Byte × State) := do
  let sp ← readSp s
  if sp = 255 then .error .stackUnderflow
  else do
    let v ← memRead sp.toNat s
    .ok (v, writeSp (sp + 1) s)

/-! ### Taking a fault (R150) -/

/-- `raise Fault(cause)` (R150): the state is kept as it was before the handler, and the run state becomes
Faulted(cause). There is no saved register beside the unchanged pc, no vector and no mode, and no return:
Faulted is terminal (R164). -/
def takeFault (cause : FaultCause) (s : State) : State := { s with run := .faulted cause }

/-- The outcome of a handler that ran on `s`: its result, or the fault taken on `s` itself (R150, R161). -/
def finish (s : State) : Except FaultCause State → Host.Outcome State Fault Refusal
  | .ok t => .next t
  | .error cause => .next (takeFault cause s)

/-! ### The engine (R90, R91, R94, R97) -/

/-- `ir`, `operand_a`, `operand_b` <- the three bytes at pc (R90). -/
def latch (s : State) : State :=
  { s with
    ir := Memory.read s.mem s.pc.toNat
    operandA := Memory.read s.mem (s.pc.toNat + 1)
    operandB := Memory.read s.mem (s.pc.toNat + 2) }

/-- The fetch: three bytes latched, or FETCH_OUT_OF_RANGE and nothing latched (R90, R91). -/
def fetch (s : State) : Except FaultCause State :=
  if s.pc.toNat + 2 > 255 then .error .fetchOutOfRange else .ok (latch s)

/-- The engine's PC advance after a handler, from the decoded opcode byte (R94). -/
def advancePc (d : Decoded) (t : State) : State :=
  if t.run = .running ∧ d.setsPc = false then { t with pc := t.pc + d.count.setWidth 9 + 1 } else t

/-- The engine's PC advance on a handler's outcome. -/
def afterHandler (d : Decoded) : Host.Outcome State Fault Refusal → Host.Outcome State Fault Refusal
  | .next t => .next (advancePc d t)
  | .fault f => .fault f
  | .refused r => .refused r

/-- No step from Halted or Faulted (R97): why the core stands still, or `none` while it runs. -/
def stopReason : RunState → Option Fault
  | .running => none
  | .halted => some .coreHalted
  | .faulted cause => some (.coreFaulted cause)

end Sys2Proof.Machine
end

