-- ==== Sys2Proof/Machine/Flags.lean ====
section
/-! DEFINITION. The flags register's bits and the one flag computation of the core, CMP's (spec/10_state.md R26, spec/44_alu.md R145). -/

namespace Sys2Proof.Machine

/-- E, bit 0 (R26). -/
def flagE (fl : Byte) : Bool := fl.getLsbD 0

/-- G, bit 1 (R26). -/
def flagG (fl : Byte) : Bool := fl.getLsbD 1

/-- L, bit 2 (R26). -/
def flagL (fl : Byte) : Bool := fl.getLsbD 2

/-- The value CMP writes to FL: an unsigned comparison, exactly one of E, G and L set, bits 7:3 zero (R145). -/
def compareFlags (va vb : Byte) : Byte :=
  if va = vb then 0x01 else if va.toNat > vb.toNat then 0x02 else 0x04

end Sys2Proof.Machine
end

