-- ==== Sys2Proof/Machine/Operands.lean ====
section
/-! DEFINITION. The two operand kinds (spec/30_encoding.md R73): a register index, checked to be 0..7, and an immediate, used as is. -/

namespace Sys2Proof.Machine

/-- `ridx(b)` (R73): the register an operand byte names, or REGISTER_INDEX_OUT_OF_RANGE above 7 (R155). -/
def ridx (b : Byte) : Except FaultCause RegIndex :=
  if h : b.toNat < 8 then .ok ⟨b.toNat, h⟩ else .error .registerIndexOutOfRange

/-- `imm = operand_b`, with no extension, scaling or shift (R73). -/
def immediate (b : Byte) : Byte := b

/-- Format F2R's operands as the handlers use them: both indices checked, `a` first, then both values read, `a`
first (R99, R160). Answers the register `a` names and the two values. -/
def readPair (a b : Byte) (s : State) : Except FaultCause (RegIndex × Byte × Byte) := do
  let ra ← ridx a
  let rb ← ridx b
  let va ← readReg ra s
  let vb ← readReg rb s
  .ok (ra, va, vb)

/-- One register operand, checked and read. -/
def readOne (r : Byte) (s : State) : Except FaultCause (RegIndex × Byte) := do
  let i ← ridx r
  let v ← readReg i s
  .ok (i, v)

end Sys2Proof.Machine
end

