-- ==== Sys2Proof/Machine/Alu.lean ====
section
/-! DEFINITION. ADD, ADDI, SUB, MUL and CMP (spec/44_alu.md R140-R145): unsigned 8-bit arithmetic modulo 256. -/

namespace Sys2Proof.Machine

/-- `(va + vb) mod 256` (R141). -/
def addBytes (va vb : Byte) : Byte := BitVec.ofNat 8 (va.toNat + vb.toNat)

/-- `(va - vb) mod 256` (R143). -/
def subBytes (va vb : Byte) : Byte := BitVec.ofInt 8 (va.toNat - vb.toNat : Int)

/-- `(va * vb) mod 256` (R144). -/
def mulBytes (va vb : Byte) : Byte := BitVec.ofNat 8 (va.toNat * vb.toNat)

/-- `x[a] <- f(x[a], x[b])`, the shape of ADD, SUB and MUL. -/
def aluPair (f : Byte → Byte → Byte) (a b : Byte) (s : State) : Except FaultCause State := do
  let (ra, va, vb) ← readPair a b s
  .ok (writeReg ra (f va vb) s)

/-- R141. -/
def execAdd (a b : Byte) (s : State) : Host.Outcome State Fault Refusal := finish s (aluPair addBytes a b s)

/-- R142. -/
def execAddi (r imm : Byte) (s : State) : Host.Outcome State Fault Refusal :=
  finish s do
    let (i, v) ← readOne r s
    .ok (writeReg i (addBytes v (immediate imm)) s)

/-- R143. -/
def execSub (a b : Byte) (s : State) : Host.Outcome State Fault Refusal := finish s (aluPair subBytes a b s)

/-- R144. -/
def execMul (a b : Byte) (s : State) : Host.Outcome State Fault Refusal := finish s (aluPair mulBytes a b s)

/-- R145: no register is written, all of FL is. -/
def execCmp (a b : Byte) (s : State) : Host.Outcome State Fault Refusal :=
  finish s do
    let (_, va, vb) ← readPair a b s
    .ok (writeFl (compareFlags va vb) s)

end Sys2Proof.Machine
end

