-- ==== Sys2Proof/Machine/Control.lean ====
section
/-! DEFINITION. CALL, RET, JMP, JEQ and JNE (spec/43_control.md R130-R135). These handlers own the whole PC update (spec/40_engine.md R95). -/

namespace Sys2Proof.Machine

/-- R130: the target is read before SP changes. -/
def execCall (r : Byte) (s : State) : Host.Outcome State Fault Refusal :=
  finish s do
    let (_, target) ← readOne r s
    let t ← pushByte (returnAddress s) s
    .ok (jumpTo target t)

/-- R131. -/
def execRet (s : State) : Host.Outcome State Fault Refusal :=
  finish s do
    let (v, t) ← popByte s
    .ok (jumpTo v t)

/-- R132. -/
def execJmp (r : Byte) (s : State) : Host.Outcome State Fault Refusal :=
  finish s do
    let (_, target) ← readOne r s
    .ok (jumpTo target s)

/-- The conditional jump of JEQ and JNE (R133, R134): the index is checked in any case, FL is read next, and the
register is read only when the jump is taken. `takenWhen` is the value of E that takes it. -/
def conditionalJump (takenWhen : Bool) (r : Byte) (s : State) : Except FaultCause State := do
  let i ← ridx r
  let f ← readFl s
  if flagE f = takenWhen then do
    let target ← readReg i s
    .ok (jumpTo target s)
  else .ok (skipJump s)

/-- R133. -/
def execJeq (r : Byte) (s : State) : Host.Outcome State Fault Refusal := finish s (conditionalJump true r s)

/-- R134. -/
def execJne (r : Byte) (s : State) : Host.Outcome State Fault Refusal := finish s (conditionalJump false r s)

end Sys2Proof.Machine
end

