-- ==== Sys2Proof/Machine/General.lean ====
section
/-! DEFINITION. HLT, LDI, PRN and ST (spec/41_general.md R110-R113). The PC advance is the engine's (spec/40_engine.md R94). -/

namespace Sys2Proof.Machine

/-- R110. -/
def execHlt (s : State) : Host.Outcome State Fault Refusal := finish s (.ok (halt s))

/-- R111. -/
def execLdi (r imm : Byte) (s : State) : Host.Outcome State Fault Refusal :=
  finish s do
    let i ← ridx r
    .ok (writeReg i (immediate imm) s)

/-- R112. -/
def execPrn (r : Byte) (s : State) : Host.Outcome State Fault Refusal :=
  finish s do
    let (_, v) ← readOne r s
    .ok (emit v s)

/-- R113: the value of `a` is the address, the value of `b` is stored. -/
def execSt (a b : Byte) (s : State) : Host.Outcome State Fault Refusal :=
  finish s do
    let (_, addr, v) ← readPair a b s
    memWrite addr.toNat v s

end Sys2Proof.Machine
end

