-- ==== Sys2Proof/Machine/Stack.lean ====
section
/-! DEFINITION. PUSH and POP (spec/42_stack.md R120, R121). -/

namespace Sys2Proof.Machine

/-- R120: the register is read before SP changes. -/
def execPush (r : Byte) (s : State) : Host.Outcome State Fault Refusal :=
  finish s do
    let (_, v) ← readOne r s
    pushByte v s

/-- R121: the destination is written last, after SP. -/
def execPop (r : Byte) (s : State) : Host.Outcome State Fault Refusal :=
  finish s do
    let i ← ridx r
    let (v, t) ← popByte s
    .ok (writeReg i v t)

end Sys2Proof.Machine
end

