-- ==== Sys2Proof/Machine/Step.lean ====
section
/-! DEFINITION. The one step of the core (spec/40_engine.md R96), and placing an instruction where the step fetches it. -/

namespace Sys2Proof.Machine

/-- The step of R96 under the opcode table `m`: no step unless Running (R97), fetch (R90, R91), decode and dispatch
(R92, R93), the handler, and the engine's PC advance (R94). -/
def stepWith (m : OpcodeMap) (s : State) : Host.Outcome State Fault Refusal :=
  match stopReason s.run with
  | some why => .fault why
  | none =>
    match fetch s with
    | .error cause => .next (takeFault cause s)
    | .ok f =>
      match decodeWith m f.ir f.operandA f.operandB with
      | .error cause => .next (takeFault cause f)
      | .ok i => afterHandler (decodeOpcode f.ir) (exec i f)

/-- The machine's step: `stepWith` under the machine's opcode table (log entry 6). -/
def step (s : State) : Host.Outcome State Fault Refusal := stepWith opcodeMap s

/-- `s` with a table word's three bytes where the next step fetches them: at pc, or from address 0 when pc is too
high for a fetch (R91), with the core Running (log entry 9). -/
def State.withFetchWord (s : State) (nbits w : Nat) : State :=
  let p : Pc := if s.pc.toNat + 2 > 255 then 0 else s.pc
  { s with
    pc := p
    run := .running
    mem := Memory.writeBytes s.mem p.toNat [tableByte nbits w 0, tableByte nbits w 1, tableByte nbits w 2] }

end Sys2Proof.Machine
end

