-- ==== Sys2Proof/Machine/Interface.lean ====
section
/-! DEFINITION. The block's interface to the host: load, status and cause, the PRN event, the exit status (spec/70_reset_and_hazards.md R183, R184; spec/60_exceptions.md R151, R162). -/

namespace Sys2Proof.Machine

/-- The numeric code of a cause, `cause[3:0]` (R151, R184). -/
def faultCode : FaultCause → BitVec 4
  | .fetchOutOfRange => 1
  | .unsupportedOperation => 2
  | .unsupportedAluOperation => 3
  | .registerIndexOutOfRange => 4
  | .stackOverflow => 5
  | .stackUnderflow => 6
  | .unwrittenRegister => 7
  | .unwrittenFlags => 8
  | .memoryAddressOutOfRange => 9

/-- The cause code the block shows, if it has faulted (R184). -/
def causeOutput : RunState → Option (BitVec 4)
  | .running => none
  | .halted => none
  | .faulted cause => some (faultCode cause)

/-- The exit status the host reports at the end of a run, and none while the core runs (R162). -/
def hostExitStatus : RunState → Option Nat
  | .running => none
  | .halted => some 0
  | .faulted _ => some 1

/-- `out_valid`, `out_data`: the event of one step from `s` to `t`, the value PRN emitted if it did (R184; log entry 12). -/
def outEvent (s t : State) : Option Byte := (t.output.drop s.output.length).head?

/-- The host's load (R183): an image of 1..256 bytes, written from address 0 into the state reset leaves, so only
before the first step. Any other image is refused by the host, and no run starts. -/
def loadImage (image : List Byte) : Option State :=
  if 1 ≤ image.length ∧ image.length ≤ Config.memSize then
    some { State.reset with mem := Memory.writeBytes State.reset.mem 0 image }
  else none

end Sys2Proof.Machine
end

