-- ==== Sys2Proof/Safety.lean ====
section
/-! DEFINITION. The terms claims are stated in: the invariant of the machine, the frame of an instruction, the states a run reaches, and what no program can tell apart. -/

namespace Sys2Proof

/-- The instructions of spec/43_control.md, which own the PC update (R95). -/
def Instr.isControl : Instr → Bool
  | .call _ => true
  | .ret => true
  | .jmp _ => true
  | .jeq _ => true
  | .jne _ => true
  | .hlt => false
  | .ldi _ _ => false
  | .prn _ => false
  | .st _ _ => false
  | .push _ => false
  | .pop _ => false
  | .add _ _ => false
  | .addi _ _ => false
  | .sub _ _ => false
  | .mul _ _ => false
  | .cmp _ _ => false

end Sys2Proof

namespace Sys2Proof.Machine

/-- SP, the storage of `x[7]` (spec/10_state.md R23). -/
abbrev State.sp (s : State) : Byte := s.reg Config.spIndex

/-- What every run keeps: memory in canonical form (R50, R52), pc in 0..256 (R24), R7 never unwritten (R22), and a
written FL one of 0x01, 0x02, 0x04 (R26). -/
abbrev State.Inv (s : State) : Prop :=
  Memory.wf s.mem ∧ s.pc.toNat ≤ 256 ∧ s.isWritten Config.spIndex = true ∧
  (s.flWritten = true → s.fl = 0x01 ∨ s.fl = 0x02 ∨ s.fl = 0x04)

/-- What an instruction may change: the named registers, FL, pc, the run state, the output stream, the bytes of
memory at the named addresses. Nothing is named unless it is written out. -/
structure Footprint where
  regs : List RegIndex := []
  fl : Bool := false
  pc : Bool := false
  run : Bool := false
  output : Bool := false
  mem : List Nat := []

/-- Going from `s` to `t` changes nothing outside the footprint: every other register keeps its value and its written
mark, every other byte of memory reads as before, and the fetch latches are held (R90). -/
def Frame (f : Footprint) (s t : State) : Prop :=
  (∀ r, r ∉ f.regs → t.reg r = s.reg r ∧ t.isWritten r = s.isWritten r) ∧
  (f.fl = false → t.fl = s.fl ∧ t.flWritten = s.flWritten) ∧
  (f.pc = false → t.pc = s.pc) ∧
  (f.run = false → t.run = s.run) ∧
  (f.output = false → t.output = s.output) ∧
  (∀ a, a ∉ f.mem → Memory.read t.mem a = Memory.read s.mem a) ∧
  t.ir = s.ir ∧ t.operandA = s.operandA ∧ t.operandB = s.operandB

/-- The instruction that stands at pc, as the table `m` decodes the three bytes there. -/
def State.instrAt (m : OpcodeMap) (s : State) : Except FaultCause Instr :=
  decodeWith m (Memory.read s.mem s.pc.toNat) (Memory.read s.mem (s.pc.toNat + 1)) (Memory.read s.mem (s.pc.toNat + 2))

/-- The core is Running and its fetch window is in range (R91). -/
abbrev State.CanFetch (s : State) : Prop := s.run = .running ∧ s.pc.toNat + 2 ≤ 255

/-- The fetch latches hold the three bytes that `byteAt` gives from address `p` upward (R90). -/
def State.Latched (u : State) (byteAt : Nat → Byte) (p : Nat) : Prop :=
  u.ir = byteAt p ∧ u.operandA = byteAt (p + 1) ∧ u.operandB = byteAt (p + 2)

/-- The byte at `x` in the memory of `s` once `v` has been stored at `a` (R58). -/
def State.byteAfterStore (s : State) (a : Nat) (v : Byte) (x : Nat) : Byte :=
  if x = a then v else Memory.read s.mem x

/-- The states a run reaches (R98): the host loads an image, then the core steps. -/
inductive Reachable (m : OpcodeMap) : State → Prop
  | load (image : List Byte) (s : State) (h : loadImage image = some s) : Reachable m s
  | step (s t : State) (hs : Reachable m s) (h : stepWith m s = .next t) : Reachable m t

/-- Two states no program can tell apart: alike in everything but the stored value behind a clear written mark
(R22, R28, R33) and the fetch latches (R31). -/
def Alike (s t : State) : Prop :=
  t.xWritten = s.xWritten ∧ (∀ r, s.isWritten r = true → t.reg r = s.reg r) ∧
  t.flWritten = s.flWritten ∧ (s.flWritten = true → t.fl = s.fl) ∧
  t.pc = s.pc ∧ t.mem = s.mem ∧ t.run = s.run ∧ t.output = s.output

end Sys2Proof.Machine
end

