-- ==== Sys2Proof/Certificates/Slice0/Obligations.lean ====
section
/-! DEFINITION. The statements for the provers. In them `m` ranges over opcode tables: `step` is `stepWith` under `opcodeMap`, and a statement over every table (or every legal one) covers it and every other value of the open parameter `ADDI_OPCODE` (spec/30_encoding.md R75). A next state in which `run` is Faulted(cause) is the fault the spec describes (R150). -/

open Sys2Proof Sys2Proof.Machine

/-! ### Encoding -/

/-- R71, R72: the decoder's fields are bits 7:6, 5, 4 and 3:0 of the opcode byte, its key is the whole byte, and it
yields them for every byte. The weights of the bits are R8's numbering, which is presumed (log entry 7). -/
def Obligations.DecoderYieldsTheFields : Prop :=
  ∀ ir : Byte,
    (decodeOpcode ir).count.toNat = ir.toNat / 64 ∧
    ((decodeOpcode ir).isAlu = true ↔ ir.toNat / 32 % 2 = 1) ∧
    ((decodeOpcode ir).setsPc = true ↔ ir.toNat / 16 % 2 = 1) ∧
    (decodeOpcode ir).id.toNat = ir.toNat % 16 ∧
    (decodeOpcode ir).key = ir

/-- R74: the spec's words, written out bit by bit (bit 7 first), decode to their instructions. The byte values are the
spec's general knowledge (log entry 7), and ADDI's is the example default (log entry 6). -/
def Obligations.SpecWordsDecode : Prop :=
  decode 0b00000001 0x00 0x00 = .ok .hlt ∧
  decode 0b10000010 0x03 0xFF = .ok (.ldi 3 255) ∧
  decode 0b01000111 0x02 0x99 = .ok (.prn 2) ∧
  decode 0b10000100 0x02 0x05 = .ok (.st 2 5) ∧
  decode 0b01000101 0x04 0x00 = .ok (.push 4) ∧
  decode 0b01010000 0x01 0x00 = .ok (.call 1) ∧
  decode 0b01010110 0x06 0x00 = .ok (.jne 6) ∧
  decode 0b10100101 0x00 0x0A = .ok (.addi 0 10) ∧
  decode 0b10100111 0x07 0x06 = .ok (.cmp 7 6)

/-- R70, R74, R79: under every legal opcode table, decoding the bytes of any instruction, whatever bytes follow them,
gives that instruction back with every operand byte. -/
def Obligations.DecodeEncodeAgree : Prop :=
  ∀ (m : OpcodeMap), m.legal → ∀ (i : Instr) (rest : List Byte),
    3 ≤ (encodeWith m i).length + rest.length →
    decodeBytesWith m (encodeWith m i ++ rest) = .ok i

/-- R70, R71: under every legal opcode table, what decodes to an instruction begins with that instruction's bytes, and
their number is one more than the opcode's count field. -/
def Obligations.EncodeDecodeAgree : Prop :=
  ∀ (m : OpcodeMap), m.legal → ∀ (ir a b : Byte) (i : Instr), decodeWith m ir a b = .ok i →
    (∃ rest, encodeWith m i ++ rest = [ir, a, b]) ∧
    (encodeWith m i).length = 1 + (decodeOpcode ir).count.toNat

/-- R77, R78: a byte that is none of the sixteen opcodes is rejected, by the cause its bit 5 chooses (bit numbering: R8,
log entry 7), and every byte with operand count 3 is such a byte. -/
def Obligations.IllegalBytesAreRejected : Prop :=
  ∀ (m : OpcodeMap), m.legal → ∀ (ir a b : Byte),
    ((∀ row ∈ opcodeRows m, row.byte ≠ ir) →
      decodeWith m ir a b =
        .error (if ir.getLsbD 5 then .unsupportedAluOperation else .unsupportedOperation)) ∧
    ((decodeOpcode ir).count = 3 → ∀ row ∈ opcodeRows m, row.byte ≠ ir)

/-- R77: 240 of the 256 byte values are illegal, whatever legal value ADDI_OPCODE takes (the other fifteen values are
the spec's general knowledge, log entry 7). -/
def Obligations.TwoHundredFortyBytesAreIllegal : Prop :=
  ∀ b : Byte, (ls8Map b).legal →
    ((List.range 256).filter (fun n =>
      match decodeWith (ls8Map b) (BitVec.ofNat 8 n) 0 0 with
      | .ok _ => false
      | .error _ => true)).length = 240

/-- R75: the legal values of ADDI_OPCODE. -/
def Obligations.LegalAddiOpcodes : Prop :=
  ∀ b : Byte, (ls8Map b).legal ↔ 0xA3 ≤ b.toNat ∧ b.toNat ≤ 0xAF ∧ b ≠ 0xA7

/-! ### The step -/

/-- R90, R93, R94, R96: a Running core whose fetch is in range and whose bytes at pc decode to `i` runs `i` on the
state with the three bytes latched, and then the engine advances pc by the count field plus one if the core still runs
and the opcode's bit 4 is clear. The machine's own step is the one under `opcodeMap`.
That the latches still hold those bytes after a handler's fault is log entry 3. -/
def Obligations.StepRunsTheDecodedInstruction : Prop :=
  (∀ (m : OpcodeMap) (s : State) (i : Instr), s.CanFetch → s.instrAt m = .ok i →
    ∃ t, exec i (latch s) = .next t ∧
      stepWith m s = .next
        (if t.run = .running ∧ (decodeOpcode (latch s).ir).setsPc = false
         then { t with pc := t.pc + (decodeOpcode (latch s).ir).count.setWidth 9 + 1 } else t)) ∧
  (∀ s : State, step s = stepWith opcodeMap s)

/-- R91, R154: a fetch whose window leaves 0..255 faults, whatever stands there, and latches nothing. -/
def Obligations.FetchFaultsNearTheTop : Prop :=
  ∀ (m : OpcodeMap) (s : State), s.run = .running → 255 < s.pc.toNat + 2 →
    stepWith m s = .next { s with run := .faulted .fetchOutOfRange }

/-- R152, R153: an opcode byte that is no key of the table its bit 5 chooses faults at dispatch, by that table's cause,
and only the run state and the fetch latches change (log entry 3; bit numbering: R8, log entry 7). -/
def Obligations.UnsupportedBytesFault : Prop :=
  ∀ (m : OpcodeMap) (s : State), s.CanFetch →
    ((Memory.read s.mem s.pc.toNat).getLsbD 5 = false →
      Memory.read s.mem s.pc.toNat ∉ (generalTable m).map (·.1) →
      stepWith m s = .next { latch s with run := .faulted .unsupportedOperation }) ∧
    ((Memory.read s.mem s.pc.toNat).getLsbD 5 = true →
      Memory.read s.mem s.pc.toNat ∉ (aluTable m).map (·.1) →
      stepWith m s = .next { latch s with run := .faulted .unsupportedAluOperation })

/-- R97: in state Halted or Faulted the core takes no step. -/
def Obligations.TerminalStatesTakeNoStep : Prop :=
  ∀ (m : OpcodeMap) (s : State), (s.run = .halted ∨ ∃ c, s.run = .faulted c) → ∀ t, stepWith m s ≠ .next t

/-- R96: a Running core always takes its step, and no state is refused. -/
def Obligations.RunningCoreAlwaysSteps : Prop :=
  ∀ (m : OpcodeMap) (s : State),
    ((∃ t, stepWith m s = .next t) ↔ s.run = .running) ∧ ∀ r, stepWith m s ≠ .refused r

/-- R30, R96: a step leads to Halted exactly when the instruction at pc is an HLT that could be fetched. -/
def Obligations.HaltedExactlyByHlt : Prop :=
  ∀ (m : OpcodeMap) (s t : State), stepWith m s = .next t →
    (t.run = .halted ↔ s.pc.toNat + 2 ≤ 255 ∧ s.instrAt m = .ok .hlt)

/-- R150, R161: a step that faults leaves every register, its mark, FL, memory, pc and the output as they were (the
fetch latches may hold the bytes of the faulting instruction, log entry 3). -/
def Obligations.FaultsArePrecise : Prop :=
  ∀ (m : OpcodeMap) (s t : State) (c : FaultCause), stepWith m s = .next t → t.run = .faulted c →
    t = { s with run := .faulted c, ir := t.ir, operandA := t.operandA, operandB := t.operandB }

/-- R159: MemRead and MemWrite fault MEMORY_ADDRESS_OUT_OF_RANGE exactly above address 255, and no step of any program
ends in that fault. -/
def Obligations.DataAddressFaultIsUnreachable : Prop :=
  (∀ (a : Nat) (v : Byte) (s : State),
    (memRead a s = .error .memoryAddressOutOfRange ↔ 255 < a) ∧
    (memWrite a v s = .error .memoryAddressOutOfRange ↔ 255 < a)) ∧
  ∀ (m : OpcodeMap) (s t : State), stepWith m s = .next t → t.run ≠ .faulted .memoryAddressOutOfRange

/-- R94: an instruction of spec/41, 42 or 44 that completes moves pc past exactly its own bytes, with no wrap. -/
def Obligations.SequentialAdvanceIsTheLength : Prop :=
  ∀ (m : OpcodeMap), m.legal → ∀ (s t : State) (i : Instr), s.CanFetch → s.instrAt m = .ok i →
    i.isControl = false → stepWith m s = .next t → t.run = .running →
    t.pc.toNat = s.pc.toNat + (encodeWith m i).length

/-- R95: the handlers of spec/41, 42 and 44 never write pc; those of spec/43 write it on every path that does not
fault, with a register's value, a popped byte, or, for a jump not taken at a pc a fetch admits (R91), `p_pc + 2`
(R130-R134; D7 for CALL R7); the engine writes pc only by R94. -/
def Obligations.ControlFlowInvariant : Prop :=
  (∀ (i : Instr) (s t : State), i.isControl = false → exec i s = .next t → t.pc = s.pc) ∧
  (∀ (r : RegIndex) (s t : State), s.run = .running → t.run = .running →
    ((exec (.call (regByte r)) s = .next t ∨ exec (.jmp (regByte r)) s = .next t) →
      t.pc.toNat = (s.reg r).toNat) ∧
    (exec .ret s = .next t → t.pc.toNat = (Memory.read s.mem s.sp.toNat).toNat) ∧
    (s.pc.toNat ≤ 253 → exec (.jeq (regByte r)) s = .next t →
      t.pc.toNat = if s.fl.getLsbD 0 then (s.reg r).toNat else s.pc.toNat + 2) ∧
    (s.pc.toNat ≤ 253 → exec (.jne (regByte r)) s = .next t →
      t.pc.toNat = if s.fl.getLsbD 0 then s.pc.toNat + 2 else (s.reg r).toNat)) ∧
  (∀ (m : OpcodeMap) (s t u : State) (i : Instr), s.CanFetch → s.instrAt m = .ok i →
    exec i (latch s) = .next t → stepWith m s = .next u →
    u.pc = if t.run = .running ∧ (decodeOpcode (latch s).ir).setsPc = false
      then t.pc + (decodeOpcode (latch s).ir).count.setWidth 9 + 1 else t.pc)

/-! ### Invariants and whole-machine rules -/

/-- R22, R24, R26, R50: every step keeps the invariant, under the machine's table and under every legal one. -/
def Obligations.StepKeepsInvariant : Prop :=
  (∀ s t : State, s.Inv → step s = .next t → t.Inv) ∧
  (∀ (m : OpcodeMap), m.legal → ∀ s t : State, s.Inv → stepWith m s = .next t → t.Inv)

/-- The invariant holds right after reset. -/
def Obligations.ResetSatisfiesInvariant : Prop := State.reset.Inv

/-- R35, R180: what reset leaves: SP = 0xF4 and written, R0..R6 and FL unwritten, pc = 0, Running, memory zero, no
output. (The values the model stores behind the clear marks are its own, log entries 1 and 2, and no part of this.) -/
def Obligations.ResetLeaves : Prop :=
  State.reset.sp = 0xF4 ∧ (∀ r : RegIndex, State.reset.isWritten r = true ↔ r = 7) ∧
  State.reset.flWritten = false ∧ State.reset.pc = 0 ∧ State.reset.run = .running ∧
  (∀ a, Memory.read State.reset.mem a = 0) ∧ State.reset.output = []

/-- R35, R98, R183: every state that a run of any loaded image reaches, under any legal table, satisfies the
invariant. -/
def Obligations.ReachableStatesSatisfyInvariant : Prop :=
  ∀ (m : OpcodeMap), m.legal → ∀ s, Reachable m s → s.Inv

/-- R22, R28: no step makes a register or FL unwritten again. -/
def Obligations.WrittenStaysWritten : Prop :=
  ∀ (m : OpcodeMap) (s t : State), stepWith m s = .next t →
    (∀ r, s.isWritten r = true → t.isWritten r = true) ∧ (s.flWritten = true → t.flWritten = true)

/-- R32, R112, R167: a step either leaves the output stream alone or is a PRN and appends the register's value. -/
def Obligations.OutputComesOnlyFromPrn : Prop :=
  ∀ (m : OpcodeMap) (s t : State), stepWith m s = .next t →
    t.output = s.output ∨
    ∃ r : RegIndex, s.instrAt m = .ok (.prn (regByte r)) ∧ t.output = s.output ++ [s.reg r]

/-- R27: CMP alone writes FL, and a CMP that completes writes all of it; JEQ and JNE alone read it, and they read bit 0
only. "Does not read" is said by two runs that differ in FL alone. -/
def Obligations.FlagsWritersAndReaders : Prop :=
  (∀ (i : Instr) (s t : State), exec i s = .next t → (∀ a b, i ≠ .cmp a b) →
    t.fl = s.fl ∧ t.flWritten = s.flWritten) ∧
  (∀ (a b fl : Byte) (w : Bool) (s t u : State), s.run = .running → t.run = .running →
    exec (.cmp a b) s = .next t → exec (.cmp a b) { s with fl := fl, flWritten := w } = .next u →
    u = t ∧ t.flWritten = true) ∧
  (∀ (i : Instr) (fl : Byte) (w : Bool) (s t : State), (∀ r, i ≠ .jeq r) → (∀ r, i ≠ .jne r) →
    exec i s = .next t →
    ∃ u, exec i { s with fl := fl, flWritten := w } = .next u ∧ u = { t with fl := u.fl, flWritten := u.flWritten }) ∧
  (∀ (i : Instr) (fl : Byte) (s t : State) (r : Byte), (i = .jeq r ∨ i = .jne r) → fl.getLsbD 0 = s.fl.getLsbD 0 →
    exec i s = .next t → exec i { s with fl := fl } = .next { t with fl := fl })

/-- R22, R28, R31, R33: what stands behind a clear written mark, and what the latches held, is never seen: two states
alike in everything else step alike. So the values log entries 1, 2 and 3 name are unobservable. -/
def Obligations.UnwrittenValuesAreUnobservable : Prop :=
  ∀ (m : OpcodeMap) (s s' t : State), Alike s s' → stepWith m s = .next t →
    ∃ t', stepWith m s' = .next t' ∧ Alike t t'

/-! ### What each instruction does -/

/-- R110: HLT enters Halted and changes nothing else, pc included (D24). -/
def Obligations.HltHalts : Prop :=
  ∀ s : State, exec .hlt s = .next { s with run := .halted }

/-- R111: LDI loads any immediate into any register, R7 included, makes it written, and changes nothing else. -/
def Obligations.LdiLoadsTheImmediate : Prop :=
  ∀ (r : RegIndex) (imm : Byte) (s : State), ∃ t, exec (.ldi (regByte r) imm) s = .next t ∧
    t.reg r = imm ∧ t.isWritten r = true ∧ Frame { regs := [r] } s t

/-- R112: PRN of a written register appends its value to the output and changes nothing else. -/
def Obligations.PrnEmitsTheRegister : Prop :=
  ∀ (r : RegIndex) (s : State), s.isWritten r = true → ∃ t, exec (.prn (regByte r)) s = .next t ∧
    t.output = s.output ++ [s.reg r] ∧ Frame { output := true } s t

/-- R113: ST of two written registers stores the second's value at the address the first holds, any address 0..255, and
changes no other byte and nothing else. -/
def Obligations.StStoresAtTheRegister : Prop :=
  ∀ (a b : RegIndex) (s : State), Memory.wf s.mem → s.isWritten a = true → s.isWritten b = true →
    ∃ t, exec (.st (regByte a) (regByte b)) s = .next t ∧
      Memory.read t.mem (s.reg a).toNat = s.reg b ∧ Frame { mem := [(s.reg a).toNat] } s t

/-- R120: PUSH of a written register with SP above 0 takes SP down by one, stores the register's old value there (for
R7 the old SP, D7), and changes nothing else. -/
def Obligations.PushStoresBelowSp : Prop :=
  ∀ (r : RegIndex) (s : State), Memory.wf s.mem → s.isWritten 7 = true → s.isWritten r = true → s.sp ≠ 0 →
    ∃ t, exec (.push (regByte r)) s = .next t ∧
      t.sp.toNat = s.sp.toNat - 1 ∧ Memory.read t.mem (s.sp.toNat - 1) = s.reg r ∧ t.isWritten 7 = true ∧
      Frame { regs := [7], mem := [s.sp.toNat - 1] } s t

/-- R121: POP with SP below 255 loads the byte at SP and takes SP up by one; POP R7 leaves SP equal to the popped byte
(D7). The register becomes written, memory and everything else stay. -/
def Obligations.PopLoadsFromSp : Prop :=
  ∀ (r : RegIndex) (s : State), s.isWritten 7 = true → s.sp ≠ 255 →
    ∃ t, exec (.pop (regByte r)) s = .next t ∧
      t.reg r = Memory.read s.mem s.sp.toNat ∧ t.isWritten r = true ∧
      (r ≠ 7 → t.sp.toNat = s.sp.toNat + 1 ∧ t.isWritten 7 = true) ∧ Frame { regs := [r, 7] } s t

/-- R130: CALL through a written register with SP above 0, at a pc a fetch admits (R91), pushes `p_pc + 2` and jumps to
the register's old value (for R7 the old SP, D7). -/
def Obligations.CallPushesTheReturnAddress : Prop :=
  ∀ (r : RegIndex) (s : State), Memory.wf s.mem → s.isWritten 7 = true → s.isWritten r = true → s.sp ≠ 0 →
    s.pc.toNat ≤ 253 →
    ∃ t, exec (.call (regByte r)) s = .next t ∧
      t.pc.toNat = (s.reg r).toNat ∧ t.sp.toNat = s.sp.toNat - 1 ∧ t.isWritten 7 = true ∧
      (Memory.read t.mem (s.sp.toNat - 1)).toNat = s.pc.toNat + 2 ∧
      Frame { regs := [7], pc := true, mem := [s.sp.toNat - 1] } s t

/-- R131: RET with SP below 255 jumps to the byte at SP and takes SP up by one. -/
def Obligations.RetJumpsToThePoppedByte : Prop :=
  ∀ s : State, s.isWritten 7 = true → s.sp ≠ 255 →
    ∃ t, exec .ret s = .next t ∧
      t.pc.toNat = (Memory.read s.mem s.sp.toNat).toNat ∧ t.sp.toNat = s.sp.toNat + 1 ∧ t.isWritten 7 = true ∧
      Frame { regs := [7], pc := true } s t

/-- R132, R135: JMP through a written register sets pc to its value, unchecked, and changes nothing else. -/
def Obligations.JmpJumpsToTheRegister : Prop :=
  ∀ (r : RegIndex) (s : State), s.isWritten r = true → ∃ t, exec (.jmp (regByte r)) s = .next t ∧
    t.pc.toNat = (s.reg r).toNat ∧ Frame { pc := true } s t

/-- R133, R134: with FL written, JEQ jumps exactly when E is set and JNE exactly when it is clear; a taken jump needs
its register written, and one not taken does not read it (D25) and goes to `p_pc + 2`. At a pc a fetch admits (R91). -/
def Obligations.ConditionalJumpsFollowE : Prop :=
  ∀ (r : RegIndex) (s : State), s.flWritten = true → s.pc.toNat ≤ 253 →
    (s.fl.getLsbD 0 = true → s.isWritten r = true →
      ∃ t, exec (.jeq (regByte r)) s = .next t ∧ t.pc.toNat = (s.reg r).toNat ∧ Frame { pc := true } s t) ∧
    (s.fl.getLsbD 0 = false →
      ∃ t, exec (.jeq (regByte r)) s = .next t ∧ t.pc.toNat = s.pc.toNat + 2 ∧ Frame { pc := true } s t) ∧
    (s.fl.getLsbD 0 = false → s.isWritten r = true →
      ∃ t, exec (.jne (regByte r)) s = .next t ∧ t.pc.toNat = (s.reg r).toNat ∧ Frame { pc := true } s t) ∧
    (s.fl.getLsbD 0 = true →
      ∃ t, exec (.jne (regByte r)) s = .next t ∧ t.pc.toNat = s.pc.toNat + 2 ∧ Frame { pc := true } s t)

/-- R140, R141, R143, R144: ADD, SUB and MUL of written registers leave the sum, difference and product modulo 256 in
the first (also when it is the second, also when it is R7), and change nothing else, no flag either. -/
def Obligations.AddSubMulWrap : Prop :=
  ∀ (a b : RegIndex) (s : State), s.isWritten a = true → s.isWritten b = true →
    (∃ t, exec (.add (regByte a) (regByte b)) s = .next t ∧
      (t.reg a).toNat = ((s.reg a).toNat + (s.reg b).toNat) % 256 ∧ t.isWritten a = true ∧ Frame { regs := [a] } s t) ∧
    (∃ t, exec (.sub (regByte a) (regByte b)) s = .next t ∧
      ((t.reg a).toNat : Int) = ((s.reg a).toNat - (s.reg b).toNat : Int) % 256 ∧ t.isWritten a = true ∧
      Frame { regs := [a] } s t) ∧
    (∃ t, exec (.mul (regByte a) (regByte b)) s = .next t ∧
      (t.reg a).toNat = (s.reg a).toNat * (s.reg b).toNat % 256 ∧ t.isWritten a = true ∧ Frame { regs := [a] } s t)

/-- R142: ADDI adds any immediate to a written register modulo 256 and changes nothing else, no flag either. -/
def Obligations.AddiWraps : Prop :=
  ∀ (r : RegIndex) (imm : Byte) (s : State), s.isWritten r = true → ∃ t, exec (.addi (regByte r) imm) s = .next t ∧
    (t.reg r).toNat = ((s.reg r).toNat + imm.toNat) % 256 ∧ t.isWritten r = true ∧ Frame { regs := [r] } s t

/-- R26, R145: CMP of written registers makes FL written and 0x01, 0x02 or 0x04 as the first is equal to, above or below
the second, unsigned, and changes nothing else, no register either. -/
def Obligations.CmpSetsExactlyOneFlag : Prop :=
  ∀ (a b : RegIndex) (s : State), s.isWritten a = true → s.isWritten b = true →
    ∃ t, exec (.cmp (regByte a) (regByte b)) s = .next t ∧ t.flWritten = true ∧
      ((s.reg a).toNat = (s.reg b).toNat → t.fl = 0b001) ∧
      ((s.reg a).toNat > (s.reg b).toNat → t.fl = 0b010) ∧
      ((s.reg a).toNat < (s.reg b).toNat → t.fl = 0b100) ∧
      Frame { fl := true } s t

/-! ### Frames: what any next state of an instruction keeps -/

/-- R21, R27, R51, R95, R112: the instructions that store nothing and do not touch the stack. LDI, ADD, ADDI, SUB and MUL
change their first register at most, PRN the output, CMP FL, HLT nothing, JMP, JEQ and JNE pc, and each may change the
run state (HLT, and every fault). -/
def Obligations.FrameOfRegisterInstructions : Prop :=
  ∀ (a b : RegIndex) (imm : Byte) (s t : State),
    (exec (.ldi (regByte a) imm) s = .next t ∨ exec (.addi (regByte a) imm) s = .next t ∨
      exec (.add (regByte a) (regByte b)) s = .next t ∨ exec (.sub (regByte a) (regByte b)) s = .next t ∨
      exec (.mul (regByte a) (regByte b)) s = .next t → Frame { regs := [a], run := true } s t) ∧
    (exec (.prn (regByte a)) s = .next t → Frame { output := true, run := true } s t) ∧
    (exec (.cmp (regByte a) (regByte b)) s = .next t → Frame { fl := true, run := true } s t) ∧
    (exec .hlt s = .next t → Frame { run := true } s t) ∧
    (exec (.jmp (regByte a)) s = .next t ∨ exec (.jeq (regByte a)) s = .next t ∨
      exec (.jne (regByte a)) s = .next t → Frame { pc := true, run := true } s t)

/-- R21, R27, R51, R95: the instructions that store. ST changes the byte at the address its first register holds, PUSH
and CALL the byte at the new SP and SP, CALL also pc; every other byte and register stays, whether or not they fault. -/
def Obligations.FrameOfStoringInstructions : Prop :=
  ∀ (a b : RegIndex) (s t : State),
    (exec (.st (regByte a) (regByte b)) s = .next t → Frame { mem := [(s.reg a).toNat], run := true } s t) ∧
    (exec (.push (regByte a)) s = .next t →
      Frame { regs := [7], mem := [(s.sp - 1).toNat], run := true } s t) ∧
    (exec (.call (regByte a)) s = .next t →
      Frame { regs := [7], pc := true, mem := [(s.sp - 1).toNat], run := true } s t)

/-- R21, R27, R51, R95: the instructions that pop. POP changes its register and SP, RET SP and pc; no byte of memory
changes (the popped cell is not cleared). -/
def Obligations.FrameOfPoppingInstructions : Prop :=
  ∀ (r : RegIndex) (s t : State),
    (exec (.pop (regByte r)) s = .next t → Frame { regs := [r, 7], run := true } s t) ∧
    (exec .ret s = .next t → Frame { regs := [7], pc := true, run := true } s t)

/-! ### Where instructions fault -/

/-- R155: an instruction with a register operand byte above 7 faults REGISTER_INDEX_OUT_OF_RANGE before it reads or does
anything (R73), in every state, also a JEQ or JNE that would not jump; and no other operand byte, an immediate or one
the instruction ignores, raises that fault. -/
def Obligations.BadRegisterIndexFaults : Prop :=
  (∀ (i : Instr) (s : State), i.wellFormed = false →
    exec i s = .next { s with run := .faulted .registerIndexOutOfRange }) ∧
  (∀ (i : Instr) (s t : State), s.run = .running → i.wellFormed = true → exec i s = .next t →
    t.run ≠ .faulted .registerIndexOutOfRange)

/-- R22, R158, R160 (D3): a read of an unwritten register faults, before any stack bound is checked. -/
def Obligations.UnwrittenRegisterReadFaults : Prop :=
  ∀ (a b : RegIndex) (imm : Byte) (s : State),
    (s.isWritten a = false → ∀ i ∈ [Instr.prn (regByte a), .push (regByte a), .call (regByte a), .jmp (regByte a),
        .addi (regByte a) imm],
      exec i s = .next { s with run := .faulted .unwrittenRegister }) ∧
    (s.isWritten a = false ∨ s.isWritten b = false → ∀ i ∈ [Instr.st (regByte a) (regByte b),
        .add (regByte a) (regByte b), .sub (regByte a) (regByte b), .mul (regByte a) (regByte b),
        .cmp (regByte a) (regByte b)],
      exec i s = .next { s with run := .faulted .unwrittenRegister }) ∧
    (s.isWritten a = false → s.flWritten = true → s.fl.getLsbD 0 = true →
      exec (.jeq (regByte a)) s = .next { s with run := .faulted .unwrittenRegister }) ∧
    (s.isWritten a = false → s.flWritten = true → s.fl.getLsbD 0 = false →
      exec (.jne (regByte a)) s = .next { s with run := .faulted .unwrittenRegister })

/-- R28, R158, R160 (D4): JEQ and JNE fault while FL is unwritten, whether or not their register is written. -/
def Obligations.UnwrittenFlagsReadFaults : Prop :=
  ∀ (r : RegIndex) (s : State), s.flWritten = false →
    exec (.jeq (regByte r)) s = .next { s with run := .faulted .unwrittenFlags } ∧
    exec (.jne (regByte r)) s = .next { s with run := .faulted .unwrittenFlags }

/-- R120, R130, R156 (D20): PUSH and CALL of a written register at SP = 0 fault with nothing stored. -/
def Obligations.StackOverflowFaults : Prop :=
  ∀ (r : RegIndex) (s : State), s.isWritten 7 = true → s.isWritten r = true → s.sp = 0 →
    exec (.push (regByte r)) s = .next { s with run := .faulted .stackOverflow } ∧
    exec (.call (regByte r)) s = .next { s with run := .faulted .stackOverflow }

/-- R121, R131, R157 (D20): POP and RET at SP = 255 fault with nothing loaded. -/
def Obligations.StackUnderflowFaults : Prop :=
  ∀ (r : RegIndex) (s : State), s.isWritten 7 = true → s.sp = 255 →
    exec (.pop (regByte r)) s = .next { s with run := .faulted .stackUnderflow } ∧
    exec .ret s = .next { s with run := .faulted .stackUnderflow }

/-! ### Laws over more than one instruction -/

/-- R122: the push-pop law: PUSH r and then POP r2, neither faulting, with r2 not R7 or both R7, gives r2 the value r
had, gives SP its value back, and changes memory only at the cell below the old SP. -/
def Obligations.PushPopLaw : Prop :=
  ∀ (r r2 : RegIndex) (s t u : State), Memory.wf s.mem → s.run = .running →
    exec (.push (regByte r)) s = .next t → t.run = .running →
    exec (.pop (regByte r2)) t = .next u → u.run = .running → (r2 ≠ 7 ∨ r = 7) →
    u.reg r2 = s.reg r ∧ u.sp = s.sp ∧
    ∀ a, a ≠ s.sp.toNat - 1 → Memory.read u.mem a = Memory.read s.mem a

/-- R131: a CALL and, once SP and the byte at SP are as the CALL left them, a RET resume at the instruction after the
CALL with the SP from before it. -/
def Obligations.CallRetLaw : Prop :=
  ∀ (r : RegIndex) (s t u v : State), Memory.wf s.mem → s.run = .running → s.pc.toNat ≤ 253 →
    exec (.call (regByte r)) s = .next t → t.run = .running →
    u.run = .running → u.sp = t.sp → u.isWritten 7 = true →
    Memory.read u.mem u.sp.toNat = Memory.read t.mem t.sp.toNat →
    exec .ret u = .next v →
    v.run = .running ∧ v.pc.toNat = s.pc.toNat + 2 ∧ v.sp = s.sp

/-- R111, R112: an LDI of v and then a PRN of the same register emits v. -/
def Obligations.LdiThenPrnEmitsTheImmediate : Prop :=
  ∀ (r : RegIndex) (v : Byte) (s t u : State), exec (.ldi (regByte r) v) s = .next t →
    exec (.prn (regByte r)) t = .next u → u.output = s.output ++ [v] ∧ u.run = s.run

/-- R61, R187 (D12): a store by ST, PUSH or CALL is seen by the very next fetch and not by the storing instruction
itself. The instruction completes and moves on as it would whatever it stored over: ST past its three bytes, PUSH past
its two, CALL to the register's old value. Where the next window is in range, the next step latches memory as the
store left it (also where that step then faults, log entry 3). -/
def Obligations.StoreIsSeenByTheNextFetch : Prop :=
  ∀ (m : OpcodeMap), m.legal → ∀ (a b r : RegIndex) (s : State), Memory.wf s.mem → s.CanFetch →
    (s.instrAt m = .ok (.st (regByte a) (regByte b)) → s.isWritten a = true → s.isWritten b = true →
      s.pc.toNat + 5 ≤ 255 →
      ∃ t u, stepWith m s = .next t ∧ t.pc.toNat = s.pc.toNat + 3 ∧ stepWith m t = .next u ∧
        u.Latched (s.byteAfterStore (s.reg a).toNat (s.reg b)) (s.pc.toNat + 3)) ∧
    (s.instrAt m = .ok (.push (regByte r)) → s.isWritten 7 = true → s.isWritten r = true → s.sp ≠ 0 →
      s.pc.toNat + 4 ≤ 255 →
      ∃ t u, stepWith m s = .next t ∧ t.pc.toNat = s.pc.toNat + 2 ∧ stepWith m t = .next u ∧
        u.Latched (s.byteAfterStore (s.sp.toNat - 1) (s.reg r)) (s.pc.toNat + 2)) ∧
    (s.instrAt m = .ok (.call (regByte r)) → s.isWritten 7 = true → s.isWritten r = true → s.sp ≠ 0 →
      (s.reg r).toNat + 2 ≤ 255 →
      ∃ t u, stepWith m s = .next t ∧ t.pc.toNat = (s.reg r).toNat ∧ stepWith m t = .next u ∧
        u.Latched (s.byteAfterStore (s.sp.toNat - 1) (BitVec.ofNat 8 (s.pc.toNat + 2))) (s.reg r).toNat)

/-! ### The block's interface -/

/-- R183: the load of an image of 1..256 bytes places byte k at address k, leaves the cells above zero, and leaves all
else as reset does; any other image is refused (D18). -/
def Obligations.LoadPlacesTheImage : Prop :=
  ∀ image : List Byte,
    (1 ≤ image.length ∧ image.length ≤ 256 →
      ∃ s, loadImage image = some s ∧
        (∀ k, Memory.read s.mem k = image.getD k 0) ∧ s = { State.reset with mem := s.mem }) ∧
    (image.length = 0 ∨ 256 < image.length → loadImage image = none)

/-- R181, R183: a run of a loaded image starts Running at address 0, and its first fetch latches the image's first three
bytes (zeros beyond a shorter image), also where that step then faults (log entry 3); there is no reset vector. -/
def Obligations.FirstFetchIsFromAddressZero : Prop :=
  ∀ (m : OpcodeMap) (image : List Byte) (s : State), loadImage image = some s →
    ∃ t, stepWith m s = .next t ∧
      t.ir = image.getD 0 0 ∧ t.operandA = image.getD 1 0 ∧ t.operandB = image.getD 2 0 ∧
      s.instrAt m = decodeWith m (image.getD 0 0) (image.getD 1 0) (image.getD 2 0)

/-- R151: the nine causes have the codes 1..9. -/
def Obligations.FaultCodes : Prop :=
  [FaultCause.fetchOutOfRange, .unsupportedOperation, .unsupportedAluOperation, .registerIndexOutOfRange, .stackOverflow,
    .stackUnderflow, .unwrittenRegister, .unwrittenFlags, .memoryAddressOutOfRange].map (fun c => (faultCode c).toNat)
    = [1, 2, 3, 4, 5, 6, 7, 8, 9]

/-- R162: the host's exit status: 0 for Halted, 1 for every fault, none while the core runs. -/
def Obligations.HostExitStatus : Prop :=
  ∀ s : State, (hostExitStatus s.run = some 0 ↔ s.run = .halted) ∧
    (hostExitStatus s.run = some 1 ↔ ∃ c, s.run = .faulted c) ∧ (hostExitStatus s.run = none ↔ s.run = .running)

/-- R184 (D13): the block shows one event for each PRN that completes, carrying the register's value, and none for any
other step: another instruction, a PRN that faults, a step that faults before its handler. That the event is read off
the output stream's growth is log entry 12. -/
def Obligations.OneOutputEventPerPrn : Prop :=
  ∀ (m : OpcodeMap) (s t : State), stepWith m s = .next t →
    (∀ r : RegIndex, s.CanFetch → s.instrAt m = .ok (.prn (regByte r)) → s.isWritten r = true →
      outEvent s t = some (s.reg r)) ∧
    ((¬ ∃ r : RegIndex, s.CanFetch ∧ s.instrAt m = .ok (.prn (regByte r)) ∧ s.isWritten r = true) →
      outEvent s t = none)
end

