-- ==== Sys2Proof/Laws/Decode.lean ====
section
/-! SUPPORT. Decoding: what a decoded byte must have been, what a rejected one answers, and what a legal opcode table gives. -/

namespace Sys2Proof

/-- The opcode byte of an instruction under a table. -/
def opcodeByte (m : OpcodeMap) : Instr → Byte
  | .hlt => m.hlt
  | .ldi _ _ => m.ldi
  | .prn _ => m.prn
  | .st _ _ => m.st
  | .push _ => m.push
  | .pop _ => m.pop
  | .call _ => m.call
  | .ret => m.ret
  | .jmp _ => m.jmp
  | .jeq _ => m.jeq
  | .jne _ => m.jne
  | .add _ _ => m.add
  | .addi _ _ => m.addi
  | .sub _ _ => m.sub
  | .mul _ _ => m.mul
  | .cmp _ _ => m.cmp

/-- The row of R74 an instruction stands in. -/
def opcodeRow (m : OpcodeMap) : Instr → OpcodeRow
  | .hlt => ⟨m.hlt, 0, false, false⟩
  | .ldi _ _ => ⟨m.ldi, 2, false, false⟩
  | .prn _ => ⟨m.prn, 1, false, false⟩
  | .st _ _ => ⟨m.st, 2, false, false⟩
  | .push _ => ⟨m.push, 1, false, false⟩
  | .pop _ => ⟨m.pop, 1, false, false⟩
  | .call _ => ⟨m.call, 1, false, true⟩
  | .ret => ⟨m.ret, 0, false, true⟩
  | .jmp _ => ⟨m.jmp, 1, false, true⟩
  | .jeq _ => ⟨m.jeq, 1, false, true⟩
  | .jne _ => ⟨m.jne, 1, false, true⟩
  | .add _ _ => ⟨m.add, 2, true, false⟩
  | .addi _ _ => ⟨m.addi, 2, true, false⟩
  | .sub _ _ => ⟨m.sub, 2, true, false⟩
  | .mul _ _ => ⟨m.mul, 2, true, false⟩
  | .cmp _ _ => ⟨m.cmp, 2, true, false⟩

theorem opcodeRow_mem (m : OpcodeMap) (i : Instr) : opcodeRow m i ∈ opcodeRows m := by
  cases i <;> simp [opcodeRow, opcodeRows]

theorem opcodeRow_byte (m : OpcodeMap) (i : Instr) : (opcodeRow m i).byte = opcodeByte m i := by
  cases i <;> rfl

/-- Under a legal table an instruction's opcode byte carries its row's fields (R76). -/
theorem fields_of_legal {m : OpcodeMap} (h : m.legal) (i : Instr) :
    (decodeOpcode (opcodeByte m i)).count = (opcodeRow m i).count ∧
    (decodeOpcode (opcodeByte m i)).isAlu = (opcodeRow m i).isAlu ∧
    (decodeOpcode (opcodeByte m i)).setsPc = (opcodeRow m i).setsPc := by
  rw [← opcodeRow_byte]
  exact h.2 _ (opcodeRow_mem m i)

theorem mem_of_lookup_eq_some {β : Type} {k : Byte} {v : β} {l : List (Byte × β)} (h : l.lookup k = some v) :
    (k, v) ∈ l := by
  induction l with
  | nil => cases h
  | cons p l ih =>
    rw [List.lookup] at h
    split at h
    · rename_i hk
      rw [beq_iff_eq] at hk
      rw [Option.some.injEq] at h
      rw [hk, ← h]
      exact List.mem_cons_self
    · exact List.mem_cons_of_mem _ (ih h)

theorem lookup_eq_none_of_forall_ne {β : Type} {k : Byte} {l : List (Byte × β)} (h : ∀ p ∈ l, p.1 ≠ k) :
    l.lookup k = none := by
  induction l with
  | nil => rfl
  | cons p l ih =>
    rw [List.lookup]
    have : (k == p.1) = false := by
      rw [beq_eq_false_iff_ne]
      exact (h p List.mem_cons_self).symm
    rw [this]
    exact ih fun q hq => h q (List.mem_cons_of_mem _ hq)

theorem lookup_of_mem_of_nodup {β : Type} {k : Byte} {v : β} {l : List (Byte × β)} (hn : (l.map Prod.fst).Nodup)
    (h : (k, v) ∈ l) : l.lookup k = some v := by
  induction l with
  | nil => cases h
  | cons p l ih =>
    rw [List.map_cons, List.nodup_cons] at hn
    rw [List.lookup]
    rcases List.mem_cons.1 h with rfl | h
    · simp
    · have : (k == p.1) = false := by
        rw [beq_eq_false_iff_ne]
        rintro rfl
        exact hn.1 (List.mem_map.2 ⟨_, h, rfl⟩)
      rw [this]
      exact ih hn.2 h

/-- Under a legal table no key stands twice in a handler table. -/
theorem tables_nodup {m : OpcodeMap} (h : m.legal) :
    ((generalTable m).map Prod.fst).Nodup ∧ ((aluTable m).map Prod.fst).Nodup := by
  have hn := h.1
  have e : (opcodeRows m).map (·.byte) = (generalTable m).map Prod.fst ++ (aluTable m).map Prod.fst := rfl
  rw [e, List.nodup_append] at hn
  exact ⟨hn.1, hn.2.1⟩

/-- Under a legal table a key of the general table dispatches to its handler. -/
theorem decodeWith_general {m : OpcodeMap} (h : m.legal) {k : Byte} {f : Byte → Byte → Instr}
    (hk : (k, f) ∈ generalTable m) (ha : (decodeOpcode k).isAlu = false) (a b : Byte) :
    decodeWith m k a b = .ok (f a b) := by
  rw [decodeWith, dispatch, ha, show (decodeOpcode k).key = k from rfl,
    lookup_of_mem_of_nodup (tables_nodup h).1 hk]
  rfl

/-- Under a legal table a key of the ALU table dispatches to its handler. -/
theorem decodeWith_alu {m : OpcodeMap} (h : m.legal) {k : Byte} {f : Byte → Byte → Instr}
    (hk : (k, f) ∈ aluTable m) (ha : (decodeOpcode k).isAlu = true) (a b : Byte) :
    decodeWith m k a b = .ok (f a b) := by
  rw [decodeWith, dispatch, ha, show (decodeOpcode k).key = k from rfl,
    lookup_of_mem_of_nodup (tables_nodup h).2 hk]
  rfl

/-- The machine's table meets every structural fact of R75 and R76. -/
theorem opcodeMap_legal : opcodeMap.legal := by decide

/-- What decodes to an instruction starts with that instruction's opcode byte. -/
theorem opcodeByte_of_decodeWith {m : OpcodeMap} {ir a b : Byte} {i : Instr} (h : decodeWith m ir a b = .ok i) :
    ir = opcodeByte m i := by
  unfold decodeWith dispatch at h
  split at h <;> split at h
  · rename_i hh
    have := mem_of_lookup_eq_some hh
    simp only [aluTable, List.mem_cons, Prod.mk.injEq, List.not_mem_nil, or_false] at this
    rcases this with ⟨hk, rfl⟩ | ⟨hk, rfl⟩ | ⟨hk, rfl⟩ | ⟨hk, rfl⟩ | ⟨hk, rfl⟩ <;> cases h <;> exact hk
  · cases h
  · rename_i hh
    have := mem_of_lookup_eq_some hh
    simp only [generalTable, List.mem_cons, Prod.mk.injEq, List.not_mem_nil, or_false] at this
    rcases this with ⟨hk, rfl⟩ | ⟨hk, rfl⟩ | ⟨hk, rfl⟩ | ⟨hk, rfl⟩ | ⟨hk, rfl⟩ | ⟨hk, rfl⟩ | ⟨hk, rfl⟩ | ⟨hk, rfl⟩ |
      ⟨hk, rfl⟩ | ⟨hk, rfl⟩ | ⟨hk, rfl⟩ <;> cases h <;> exact hk
  · cases h

/-- A rejected byte answers one of the two dispatch causes (R93). -/
theorem cause_of_decodeWith {m : OpcodeMap} {ir a b : Byte} {c : FaultCause} (h : decodeWith m ir a b = .error c) :
    c = .unsupportedOperation ∨ c = .unsupportedAluOperation := by
  unfold decodeWith dispatch at h
  split at h <;> split at h <;> cases h <;> simp

end Sys2Proof
end

