-- ==== Sys2Proof/Laws/State.lean ====
section
/-! SUPPORT. What each state update does to each field, one lemma a field, so that no proof unfolds a record update. -/

namespace Sys2Proof.Machine

variable (s : State)

/-! ### `writeReg`: reading registers back -/

theorem reg_writeReg (r q : RegIndex) (v : Byte) :
    (writeReg r v s).reg q = if q = r then v else s.reg q := by
  simp only [State.reg, writeReg, Vector.getElem_set, Fin.ext_iff, eq_comm]

theorem isWritten_writeReg (r q : RegIndex) (v : Byte) :
    (writeReg r v s).isWritten q = if q = r then true else s.isWritten q := by
  simp only [State.isWritten, writeReg, Vector.getElem_set, Fin.ext_iff, eq_comm]

@[simp] theorem reg_writeReg_same (r : RegIndex) (v : Byte) : (writeReg r v s).reg r = v := by
  simp [reg_writeReg]

@[simp] theorem isWritten_writeReg_same (r : RegIndex) (v : Byte) : (writeReg r v s).isWritten r = true := by
  simp [isWritten_writeReg]

theorem reg_writeReg_ne {r q : RegIndex} (h : q ≠ r) (v : Byte) : (writeReg r v s).reg q = s.reg q := by
  simp [reg_writeReg, h]

theorem isWritten_writeReg_ne {r q : RegIndex} (h : q ≠ r) (v : Byte) :
    (writeReg r v s).isWritten q = s.isWritten q := by
  simp [isWritten_writeReg, h]

@[simp] theorem readSp_eq : readSp s = readReg Config.spIndex s := rfl
@[simp] theorem writeSp_eq (v : Byte) : writeSp v s = writeReg Config.spIndex v s := rfl

/-! ### `writeReg` -/

@[simp] theorem writeReg_pc (r : RegIndex) (v : Byte) : (writeReg r v s).pc = s.pc := rfl
@[simp] theorem writeReg_fl (r : RegIndex) (v : Byte) : (writeReg r v s).fl = s.fl := rfl
@[simp] theorem writeReg_flWritten (r : RegIndex) (v : Byte) : (writeReg r v s).flWritten = s.flWritten := rfl
@[simp] theorem writeReg_mem (r : RegIndex) (v : Byte) : (writeReg r v s).mem = s.mem := rfl
@[simp] theorem writeReg_run (r : RegIndex) (v : Byte) : (writeReg r v s).run = s.run := rfl
@[simp] theorem writeReg_output (r : RegIndex) (v : Byte) : (writeReg r v s).output = s.output := rfl
@[simp] theorem writeReg_ir (r : RegIndex) (v : Byte) : (writeReg r v s).ir = s.ir := rfl
@[simp] theorem writeReg_operandA (r : RegIndex) (v : Byte) : (writeReg r v s).operandA = s.operandA := rfl
@[simp] theorem writeReg_operandB (r : RegIndex) (v : Byte) : (writeReg r v s).operandB = s.operandB := rfl

/-! ### `storeByte` -/

@[simp] theorem storeByte_x (a : Nat) (v : Byte) : (storeByte a v s).x = s.x := rfl
@[simp] theorem storeByte_xWritten (a : Nat) (v : Byte) : (storeByte a v s).xWritten = s.xWritten := rfl
@[simp] theorem storeByte_pc (a : Nat) (v : Byte) : (storeByte a v s).pc = s.pc := rfl
@[simp] theorem storeByte_fl (a : Nat) (v : Byte) : (storeByte a v s).fl = s.fl := rfl
@[simp] theorem storeByte_flWritten (a : Nat) (v : Byte) : (storeByte a v s).flWritten = s.flWritten := rfl
@[simp] theorem storeByte_mem (a : Nat) (v : Byte) : (storeByte a v s).mem = Memory.write s.mem a v := rfl
@[simp] theorem storeByte_run (a : Nat) (v : Byte) : (storeByte a v s).run = s.run := rfl
@[simp] theorem storeByte_output (a : Nat) (v : Byte) : (storeByte a v s).output = s.output := rfl
@[simp] theorem storeByte_ir (a : Nat) (v : Byte) : (storeByte a v s).ir = s.ir := rfl
@[simp] theorem storeByte_operandA (a : Nat) (v : Byte) : (storeByte a v s).operandA = s.operandA := rfl
@[simp] theorem storeByte_operandB (a : Nat) (v : Byte) : (storeByte a v s).operandB = s.operandB := rfl
@[simp] theorem storeByte_reg (a : Nat) (v : Byte) (q : RegIndex) : (storeByte a v s).reg q = s.reg q := rfl
@[simp] theorem storeByte_isWritten (a : Nat) (v : Byte) (q : RegIndex) : (storeByte a v s).isWritten q = s.isWritten q := rfl

/-! ### `writeFl` -/

@[simp] theorem writeFl_x (v : Byte) : (writeFl v s).x = s.x := rfl
@[simp] theorem writeFl_xWritten (v : Byte) : (writeFl v s).xWritten = s.xWritten := rfl
@[simp] theorem writeFl_pc (v : Byte) : (writeFl v s).pc = s.pc := rfl
@[simp] theorem writeFl_fl (v : Byte) : (writeFl v s).fl = v := rfl
@[simp] theorem writeFl_flWritten (v : Byte) : (writeFl v s).flWritten = true := rfl
@[simp] theorem writeFl_mem (v : Byte) : (writeFl v s).mem = s.mem := rfl
@[simp] theorem writeFl_run (v : Byte) : (writeFl v s).run = s.run := rfl
@[simp] theorem writeFl_output (v : Byte) : (writeFl v s).output = s.output := rfl
@[simp] theorem writeFl_ir (v : Byte) : (writeFl v s).ir = s.ir := rfl
@[simp] theorem writeFl_operandA (v : Byte) : (writeFl v s).operandA = s.operandA := rfl
@[simp] theorem writeFl_operandB (v : Byte) : (writeFl v s).operandB = s.operandB := rfl
@[simp] theorem writeFl_reg (v : Byte) (q : RegIndex) : (writeFl v s).reg q = s.reg q := rfl
@[simp] theorem writeFl_isWritten (v : Byte) (q : RegIndex) : (writeFl v s).isWritten q = s.isWritten q := rfl

/-! ### `jumpTo` -/

@[simp] theorem jumpTo_x (v : Byte) : (jumpTo v s).x = s.x := rfl
@[simp] theorem jumpTo_xWritten (v : Byte) : (jumpTo v s).xWritten = s.xWritten := rfl
@[simp] theorem jumpTo_pc (v : Byte) : (jumpTo v s).pc = v.setWidth 9 := rfl
@[simp] theorem jumpTo_fl (v : Byte) : (jumpTo v s).fl = s.fl := rfl
@[simp] theorem jumpTo_flWritten (v : Byte) : (jumpTo v s).flWritten = s.flWritten := rfl
@[simp] theorem jumpTo_mem (v : Byte) : (jumpTo v s).mem = s.mem := rfl
@[simp] theorem jumpTo_run (v : Byte) : (jumpTo v s).run = s.run := rfl
@[simp] theorem jumpTo_output (v : Byte) : (jumpTo v s).output = s.output := rfl
@[simp] theorem jumpTo_ir (v : Byte) : (jumpTo v s).ir = s.ir := rfl
@[simp] theorem jumpTo_operandA (v : Byte) : (jumpTo v s).operandA = s.operandA := rfl
@[simp] theorem jumpTo_operandB (v : Byte) : (jumpTo v s).operandB = s.operandB := rfl
@[simp] theorem jumpTo_reg (v : Byte) (q : RegIndex) : (jumpTo v s).reg q = s.reg q := rfl
@[simp] theorem jumpTo_isWritten (v : Byte) (q : RegIndex) : (jumpTo v s).isWritten q = s.isWritten q := rfl

/-! ### `skipJump` -/

@[simp] theorem skipJump_x : (skipJump s).x = s.x := rfl
@[simp] theorem skipJump_xWritten : (skipJump s).xWritten = s.xWritten := rfl
@[simp] theorem skipJump_pc : (skipJump s).pc = s.pc + 2 := rfl
@[simp] theorem skipJump_fl : (skipJump s).fl = s.fl := rfl
@[simp] theorem skipJump_flWritten : (skipJump s).flWritten = s.flWritten := rfl
@[simp] theorem skipJump_mem : (skipJump s).mem = s.mem := rfl
@[simp] theorem skipJump_run : (skipJump s).run = s.run := rfl
@[simp] theorem skipJump_output : (skipJump s).output = s.output := rfl
@[simp] theorem skipJump_ir : (skipJump s).ir = s.ir := rfl
@[simp] theorem skipJump_operandA : (skipJump s).operandA = s.operandA := rfl
@[simp] theorem skipJump_operandB : (skipJump s).operandB = s.operandB := rfl
@[simp] theorem skipJump_reg (q : RegIndex) : (skipJump s).reg q = s.reg q := rfl
@[simp] theorem skipJump_isWritten (q : RegIndex) : (skipJump s).isWritten q = s.isWritten q := rfl

/-! ### `emit` -/

@[simp] theorem emit_x (v : Byte) : (emit v s).x = s.x := rfl
@[simp] theorem emit_xWritten (v : Byte) : (emit v s).xWritten = s.xWritten := rfl
@[simp] theorem emit_pc (v : Byte) : (emit v s).pc = s.pc := rfl
@[simp] theorem emit_fl (v : Byte) : (emit v s).fl = s.fl := rfl
@[simp] theorem emit_flWritten (v : Byte) : (emit v s).flWritten = s.flWritten := rfl
@[simp] theorem emit_mem (v : Byte) : (emit v s).mem = s.mem := rfl
@[simp] theorem emit_run (v : Byte) : (emit v s).run = s.run := rfl
@[simp] theorem emit_output (v : Byte) : (emit v s).output = s.output ++ [v] := rfl
@[simp] theorem emit_ir (v : Byte) : (emit v s).ir = s.ir := rfl
@[simp] theorem emit_operandA (v : Byte) : (emit v s).operandA = s.operandA := rfl
@[simp] theorem emit_operandB (v : Byte) : (emit v s).operandB = s.operandB := rfl
@[simp] theorem emit_reg (v : Byte) (q : RegIndex) : (emit v s).reg q = s.reg q := rfl
@[simp] theorem emit_isWritten (v : Byte) (q : RegIndex) : (emit v s).isWritten q = s.isWritten q := rfl

/-! ### `halt` -/

@[simp] theorem halt_x : (halt s).x = s.x := rfl
@[simp] theorem halt_xWritten : (halt s).xWritten = s.xWritten := rfl
@[simp] theorem halt_pc : (halt s).pc = s.pc := rfl
@[simp] theorem halt_fl : (halt s).fl = s.fl := rfl
@[simp] theorem halt_flWritten : (halt s).flWritten = s.flWritten := rfl
@[simp] theorem halt_mem : (halt s).mem = s.mem := rfl
@[simp] theorem halt_run : (halt s).run = .halted := rfl
@[simp] theorem halt_output : (halt s).output = s.output := rfl
@[simp] theorem halt_ir : (halt s).ir = s.ir := rfl
@[simp] theorem halt_operandA : (halt s).operandA = s.operandA := rfl
@[simp] theorem halt_operandB : (halt s).operandB = s.operandB := rfl
@[simp] theorem halt_reg (q : RegIndex) : (halt s).reg q = s.reg q := rfl
@[simp] theorem halt_isWritten (q : RegIndex) : (halt s).isWritten q = s.isWritten q := rfl

/-! ### `takeFault` -/

@[simp] theorem takeFault_x (c : FaultCause) : (takeFault c s).x = s.x := rfl
@[simp] theorem takeFault_xWritten (c : FaultCause) : (takeFault c s).xWritten = s.xWritten := rfl
@[simp] theorem takeFault_pc (c : FaultCause) : (takeFault c s).pc = s.pc := rfl
@[simp] theorem takeFault_fl (c : FaultCause) : (takeFault c s).fl = s.fl := rfl
@[simp] theorem takeFault_flWritten (c : FaultCause) : (takeFault c s).flWritten = s.flWritten := rfl
@[simp] theorem takeFault_mem (c : FaultCause) : (takeFault c s).mem = s.mem := rfl
@[simp] theorem takeFault_run (c : FaultCause) : (takeFault c s).run = .faulted c := rfl
@[simp] theorem takeFault_output (c : FaultCause) : (takeFault c s).output = s.output := rfl
@[simp] theorem takeFault_ir (c : FaultCause) : (takeFault c s).ir = s.ir := rfl
@[simp] theorem takeFault_operandA (c : FaultCause) : (takeFault c s).operandA = s.operandA := rfl
@[simp] theorem takeFault_operandB (c : FaultCause) : (takeFault c s).operandB = s.operandB := rfl
@[simp] theorem takeFault_reg (c : FaultCause) (q : RegIndex) : (takeFault c s).reg q = s.reg q := rfl
@[simp] theorem takeFault_isWritten (c : FaultCause) (q : RegIndex) : (takeFault c s).isWritten q = s.isWritten q := rfl

/-! ### `latch` -/

@[simp] theorem latch_x : (latch s).x = s.x := rfl
@[simp] theorem latch_xWritten : (latch s).xWritten = s.xWritten := rfl
@[simp] theorem latch_pc : (latch s).pc = s.pc := rfl
@[simp] theorem latch_fl : (latch s).fl = s.fl := rfl
@[simp] theorem latch_flWritten : (latch s).flWritten = s.flWritten := rfl
@[simp] theorem latch_mem : (latch s).mem = s.mem := rfl
@[simp] theorem latch_run : (latch s).run = s.run := rfl
@[simp] theorem latch_output : (latch s).output = s.output := rfl
@[simp] theorem latch_ir : (latch s).ir = Memory.read s.mem s.pc.toNat := rfl
@[simp] theorem latch_operandA : (latch s).operandA = Memory.read s.mem (s.pc.toNat + 1) := rfl
@[simp] theorem latch_operandB : (latch s).operandB = Memory.read s.mem (s.pc.toNat + 2) := rfl
@[simp] theorem latch_reg (q : RegIndex) : (latch s).reg q = s.reg q := rfl
@[simp] theorem latch_isWritten (q : RegIndex) : (latch s).isWritten q = s.isWritten q := rfl

end Sys2Proof.Machine
end

