-- ==== Sys2Proof/Laws/Ops.lean ====
section
/-! SUPPORT. Each shared operation, said once: when it answers, and with what. -/

namespace Sys2Proof.Machine

/-! ### `Except` as the handlers use it -/

@[simp] theorem ok_bind {α β : Type} (a : α) (f : α → Except FaultCause β) : (Except.ok a >>= f) = f a := rfl

@[simp] theorem error_bind {α β : Type} (c : FaultCause) (f : α → Except FaultCause β) :
    ((Except.error c : Except FaultCause α) >>= f) = .error c := rfl

theorem bind_eq_ok {α β : Type} {x : Except FaultCause α} {f : α → Except FaultCause β} {b : β} :
    (x >>= f) = .ok b ↔ ∃ a, x = .ok a ∧ f a = .ok b := by
  cases x <;> simp

theorem bind_eq_error {α β : Type} {x : Except FaultCause α} {f : α → Except FaultCause β} {c : FaultCause} :
    (x >>= f) = .error c ↔ x = .error c ∨ ∃ a, x = .ok a ∧ f a = .error c := by
  cases x <;> simp

/-! ### Taking a fault -/

@[simp] theorem finish_ok (s t : State) : finish s (.ok t) = .next t := rfl
@[simp] theorem finish_error (s : State) (c : FaultCause) : finish s (.error c) = .next (takeFault c s) := rfl

/-- What a handler's outcome can be (R150). -/
theorem finish_eq_next {s t : State} {r : Except FaultCause State} :
    finish s r = .next t ↔ r = .ok t ∨ ∃ c, r = .error c ∧ t = takeFault c s := by
  cases r <;> simp [eq_comm]

/-! ### Operands -/

@[simp] theorem ridx_regByte (r : RegIndex) : ridx (regByte r) = .ok r := by
  revert r; decide

theorem regByte_toNat (r : RegIndex) : (regByte r).toNat = r.val := by
  revert r; decide

theorem regByte_injective {a b : RegIndex} (h : regByte a = regByte b) : a = b := by
  revert a b; decide

theorem ridx_eq_ok {b : Byte} {r : RegIndex} : ridx b = .ok r ↔ b = regByte r := by
  constructor
  · intro h
    unfold ridx at h
    split at h
    · cases h
      apply BitVec.eq_of_toNat_eq
      rw [regByte_toNat]
    · cases h
  · rintro rfl
    exact ridx_regByte r

theorem ridx_eq_error {b : Byte} {c : FaultCause} :
    ridx b = .error c ↔ 8 ≤ b.toNat ∧ c = .registerIndexOutOfRange := by
  unfold ridx
  split
  · simp
    omega
  · simp only [Except.error.injEq, eq_comm (b := c), iff_and_self]
    omega

theorem ridx_of_le {b : Byte} (h : 8 ≤ b.toNat) : ridx b = .error .registerIndexOutOfRange :=
  ridx_eq_error.2 ⟨h, rfl⟩

/-! ### Registers and flags -/

theorem readReg_eq_ok {r : RegIndex} {s : State} {v : Byte} :
    readReg r s = .ok v ↔ s.isWritten r = true ∧ v = s.reg r := by
  unfold readReg
  split <;> simp [*, eq_comm]

theorem readReg_eq_error {r : RegIndex} {s : State} {c : FaultCause} :
    readReg r s = .error c ↔ s.isWritten r = false ∧ c = .unwrittenRegister := by
  unfold readReg
  split <;> simp [*, eq_comm]

theorem readReg_written {r : RegIndex} {s : State} (h : s.isWritten r = true) : readReg r s = .ok (s.reg r) :=
  readReg_eq_ok.2 ⟨h, rfl⟩

theorem readReg_unwritten {r : RegIndex} {s : State} (h : s.isWritten r = false) :
    readReg r s = .error .unwrittenRegister :=
  readReg_eq_error.2 ⟨h, rfl⟩

theorem readFl_eq_ok {s : State} {v : Byte} : readFl s = .ok v ↔ s.flWritten = true ∧ v = s.fl := by
  unfold readFl
  split <;> simp [*, eq_comm]

theorem readFl_eq_error {s : State} {c : FaultCause} :
    readFl s = .error c ↔ s.flWritten = false ∧ c = .unwrittenFlags := by
  unfold readFl
  split <;> simp [*, eq_comm]

theorem readOne_eq_ok {b : Byte} {s : State} {p : RegIndex × Byte} :
    readOne b s = .ok p ↔ ∃ r, b = regByte r ∧ s.isWritten r = true ∧ p = (r, s.reg r) := by
  simp only [readOne, bind_eq_ok, ridx_eq_ok, readReg_eq_ok, Except.ok.injEq]
  constructor
  · rintro ⟨r, hb, _, ⟨hw, rfl⟩, rfl⟩
    exact ⟨r, hb, hw, rfl⟩
  · rintro ⟨r, hb, hw, rfl⟩
    exact ⟨r, hb, _, ⟨hw, rfl⟩, rfl⟩

theorem readOne_eq_error {b : Byte} {s : State} {c : FaultCause} :
    readOne b s = .error c ↔ (8 ≤ b.toNat ∧ c = .registerIndexOutOfRange) ∨
      ∃ r, b = regByte r ∧ s.isWritten r = false ∧ c = .unwrittenRegister := by
  simp [readOne, bind_eq_error, ridx_eq_ok, ridx_eq_error, readReg_eq_error]

theorem readPair_eq_ok {a b : Byte} {s : State} {p : RegIndex × Byte × Byte} :
    readPair a b s = .ok p ↔ ∃ ra rb, a = regByte ra ∧ b = regByte rb ∧ s.isWritten ra = true ∧
      s.isWritten rb = true ∧ p = (ra, s.reg ra, s.reg rb) := by
  simp only [readPair, bind_eq_ok, ridx_eq_ok, readReg_eq_ok, Except.ok.injEq]
  constructor
  · rintro ⟨ra, ha, rb, hb, _, ⟨hwa, rfl⟩, _, ⟨hwb, rfl⟩, rfl⟩
    exact ⟨ra, rb, ha, hb, hwa, hwb, rfl⟩
  · rintro ⟨ra, rb, ha, hb, hwa, hwb, rfl⟩
    exact ⟨ra, ha, rb, hb, _, ⟨hwa, rfl⟩, _, ⟨hwb, rfl⟩, rfl⟩

theorem readPair_eq_error {a b : Byte} {s : State} {c : FaultCause} (h : readPair a b s = .error c) :
    c = .registerIndexOutOfRange ∨ c = .unwrittenRegister := by
  simp only [readPair, bind_eq_error, ridx_eq_error, readReg_eq_error] at h
  aesop

theorem readFl_written {s : State} (h : s.flWritten = true) : readFl s = .ok s.fl :=
  readFl_eq_ok.2 ⟨h, rfl⟩

theorem readOne_written {r : RegIndex} {s : State} (h : s.isWritten r = true) :
    readOne (regByte r) s = .ok (r, s.reg r) :=
  readOne_eq_ok.2 ⟨r, rfl, h, rfl⟩

theorem readPair_written {a b : RegIndex} {s : State} (ha : s.isWritten a = true) (hb : s.isWritten b = true) :
    readPair (regByte a) (regByte b) s = .ok (a, s.reg a, s.reg b) :=
  readPair_eq_ok.2 ⟨a, b, rfl, rfl, ha, hb, rfl⟩

/-! ### Memory and the stack -/

theorem memRead_byte (a : Byte) (s : State) : memRead a.toNat s = .ok (Memory.read s.mem a.toNat) := by
  have := a.isLt
  rw [memRead, if_neg (by omega)]

theorem memWrite_byte (a v : Byte) (s : State) : memWrite a.toNat v s = .ok (storeByte a.toNat v s) := by
  have := a.isLt
  rw [memWrite, if_neg (by omega)]

/-- The push (R120): what it stores, and where. -/
theorem pushByte_eq (v : Byte) (s : State) :
    pushByte v s =
      if s.isWritten Config.spIndex = false then .error .unwrittenRegister
      else if s.reg Config.spIndex = 0 then .error .stackOverflow
      else .ok (storeByte (s.reg Config.spIndex - 1).toNat v (writeReg Config.spIndex (s.reg Config.spIndex - 1) s)) := by
  cases h : s.isWritten Config.spIndex
  · simp [pushByte, readReg_unwritten h]
  · simp only [pushByte, readSp_eq, writeSp_eq, readReg_written h, ok_bind, memWrite_byte, Bool.true_eq_false, if_false]

/-- The pop (R121): what it answers. -/
theorem popByte_eq (s : State) :
    popByte s =
      if s.isWritten Config.spIndex = false then .error .unwrittenRegister
      else if s.reg Config.spIndex = 255 then .error .stackUnderflow
      else .ok (Memory.read s.mem (s.reg Config.spIndex).toNat,
        writeReg Config.spIndex (s.reg Config.spIndex + 1) s) := by
  cases h : s.isWritten Config.spIndex
  · simp [popByte, readReg_unwritten h]
  · simp only [popByte, readSp_eq, writeSp_eq, readReg_written h, ok_bind, memRead_byte, Bool.true_eq_false, if_false]

theorem pushByte_ok {v : Byte} {s : State} (h7 : s.isWritten Config.spIndex = true)
    (h0 : s.reg Config.spIndex ≠ 0) :
    pushByte v s = .ok (storeByte (s.reg Config.spIndex - 1).toNat v
      (writeReg Config.spIndex (s.reg Config.spIndex - 1) s)) := by
  rw [pushByte_eq, if_neg (by simp [h7]), if_neg h0]

theorem popByte_ok {s : State} (h7 : s.isWritten Config.spIndex = true) (h0 : s.reg Config.spIndex ≠ 255) :
    popByte s = .ok (Memory.read s.mem (s.reg Config.spIndex).toNat,
      writeReg Config.spIndex (s.reg Config.spIndex + 1) s) := by
  rw [popByte_eq, if_neg (by simp [h7]), if_neg h0]

/-! ### Arithmetic -/

theorem toNat_sub_one {b : Byte} (h : b ≠ 0) : (b - 1).toNat = b.toNat - 1 := by
  have h0 : b.toNat ≠ 0 := fun e => h (BitVec.eq_of_toNat_eq e)
  have := b.isLt
  rw [BitVec.toNat_sub]
  simp
  omega

theorem toNat_add_one {b : Byte} (h : b ≠ 255) : (b + 1).toNat = b.toNat + 1 := by
  have h255 : b.toNat ≠ 255 := fun e => h (BitVec.eq_of_toNat_eq e)
  have := b.isLt
  rw [BitVec.toNat_add]
  simp
  omega

/-- A byte as a pc keeps its value. -/
theorem toNat_setWidth_pc (v : Byte) : (v.setWidth 9 : Pc).toNat = v.toNat := by
  have := v.isLt
  rw [BitVec.toNat_setWidth]
  omega

theorem addBytes_toNat (a b : Byte) : (addBytes a b).toNat = (a.toNat + b.toNat) % 256 := by
  simp [addBytes]

theorem mulBytes_toNat (a b : Byte) : (mulBytes a b).toNat = a.toNat * b.toNat % 256 := by
  simp [mulBytes]

theorem subBytes_toNat (a b : Byte) : ((subBytes a b).toNat : Int) = ((a.toNat : Int) - b.toNat) % 256 := by
  simp only [subBytes, BitVec.toNat_ofInt]
  omega

theorem compareFlags_cases (a b : Byte) :
    compareFlags a b = 0x01 ∨ compareFlags a b = 0x02 ∨ compareFlags a b = 0x04 := by
  unfold compareFlags
  split
  · exact .inl rfl
  · split
    · exact .inr (.inl rfl)
    · exact .inr (.inr rfl)

end Sys2Proof.Machine
end

