-- ==== Sys2Proof/Laws/Exec.lean ====
section
/-! SUPPORT. What an instruction can do, said once: its effect when it completes, or one of the faults a handler can raise, taken on the unchanged state. -/

namespace Sys2Proof.Machine

/-- What an instruction that completes has done: the conditions it met and the state it leaves. -/
def Effect : Instr → State → State → Prop
  | .hlt, s, t => t = halt s
  | .ldi b imm, s, t => ∃ r, b = regByte r ∧ t = writeReg r imm s
  | .prn b, s, t => ∃ r, b = regByte r ∧ s.isWritten r = true ∧ t = emit (s.reg r) s
  | .st a b, s, t => ∃ ra rb, a = regByte ra ∧ b = regByte rb ∧ s.isWritten ra = true ∧ s.isWritten rb = true ∧
      t = storeByte (s.reg ra).toNat (s.reg rb) s
  | .push b, s, t => ∃ r, b = regByte r ∧ s.isWritten r = true ∧ s.isWritten Config.spIndex = true ∧
      s.reg Config.spIndex ≠ 0 ∧
      t = storeByte (s.reg Config.spIndex - 1).toNat (s.reg r)
        (writeReg Config.spIndex (s.reg Config.spIndex - 1) s)
  | .pop b, s, t => ∃ r, b = regByte r ∧ s.isWritten Config.spIndex = true ∧ s.reg Config.spIndex ≠ 255 ∧
      t = writeReg r (Memory.read s.mem (s.reg Config.spIndex).toNat)
        (writeReg Config.spIndex (s.reg Config.spIndex + 1) s)
  | .call b, s, t => ∃ r, b = regByte r ∧ s.isWritten r = true ∧ s.isWritten Config.spIndex = true ∧
      s.reg Config.spIndex ≠ 0 ∧
      t = jumpTo (s.reg r) (storeByte (s.reg Config.spIndex - 1).toNat (returnAddress s)
        (writeReg Config.spIndex (s.reg Config.spIndex - 1) s))
  | .ret, s, t => s.isWritten Config.spIndex = true ∧ s.reg Config.spIndex ≠ 255 ∧
      t = jumpTo (Memory.read s.mem (s.reg Config.spIndex).toNat)
        (writeReg Config.spIndex (s.reg Config.spIndex + 1) s)
  | .jmp b, s, t => ∃ r, b = regByte r ∧ s.isWritten r = true ∧ t = jumpTo (s.reg r) s
  | .jeq b, s, t => ∃ r, b = regByte r ∧ s.flWritten = true ∧
      ((flagE s.fl = true ∧ s.isWritten r = true ∧ t = jumpTo (s.reg r) s) ∨ (flagE s.fl = false ∧ t = skipJump s))
  | .jne b, s, t => ∃ r, b = regByte r ∧ s.flWritten = true ∧
      ((flagE s.fl = false ∧ s.isWritten r = true ∧ t = jumpTo (s.reg r) s) ∨ (flagE s.fl = true ∧ t = skipJump s))
  | .add a b, s, t => ∃ ra rb, a = regByte ra ∧ b = regByte rb ∧ s.isWritten ra = true ∧ s.isWritten rb = true ∧
      t = writeReg ra (addBytes (s.reg ra) (s.reg rb)) s
  | .addi b imm, s, t => ∃ r, b = regByte r ∧ s.isWritten r = true ∧ t = writeReg r (addBytes (s.reg r) imm) s
  | .sub a b, s, t => ∃ ra rb, a = regByte ra ∧ b = regByte rb ∧ s.isWritten ra = true ∧ s.isWritten rb = true ∧
      t = writeReg ra (subBytes (s.reg ra) (s.reg rb)) s
  | .mul a b, s, t => ∃ ra rb, a = regByte ra ∧ b = regByte rb ∧ s.isWritten ra = true ∧ s.isWritten rb = true ∧
      t = writeReg ra (mulBytes (s.reg ra) (s.reg rb)) s
  | .cmp a b, s, t => ∃ ra rb, a = regByte ra ∧ b = regByte rb ∧ s.isWritten ra = true ∧ s.isWritten rb = true ∧
      t = writeFl (compareFlags (s.reg ra) (s.reg rb)) s

/-- The faults a handler can raise (R160, items 3 to 5). -/
def HandlerCause (c : FaultCause) : Prop :=
  c = .registerIndexOutOfRange ∨ c = .unwrittenRegister ∨ c = .unwrittenFlags ∨ c = .stackOverflow ∨ c = .stackUnderflow

/-! ### Peeling a handler: what each shared operation lets through -/

theorem finish_bind_ridx {b : Byte} {s t : State} {f : RegIndex → Except FaultCause State}
    (h : finish s (ridx b >>= f) = .next t) :
    (∃ r, b = regByte r ∧ finish s (f r) = .next t) ∨ ∃ c, HandlerCause c ∧ t = takeFault c s := by
  cases hb : ridx b with
  | ok r => exact .inl ⟨r, ridx_eq_ok.1 hb, by rwa [hb] at h⟩
  | error c =>
    rw [hb, error_bind, finish_error, Host.Outcome.next.injEq] at h
    exact .inr ⟨c, by simp [HandlerCause, (ridx_eq_error.1 hb).2], h.symm⟩

theorem finish_bind_readReg {r : RegIndex} {s t : State} {f : Byte → Except FaultCause State}
    (h : finish s (readReg r s >>= f) = .next t) :
    (s.isWritten r = true ∧ finish s (f (s.reg r)) = .next t) ∨ ∃ c, HandlerCause c ∧ t = takeFault c s := by
  cases hb : readReg r s with
  | ok v =>
    obtain ⟨hw, rfl⟩ := readReg_eq_ok.1 hb
    exact .inl ⟨hw, by rwa [hb] at h⟩
  | error c =>
    rw [hb, error_bind, finish_error, Host.Outcome.next.injEq] at h
    exact .inr ⟨c, by simp [HandlerCause, (readReg_eq_error.1 hb).2], h.symm⟩

theorem finish_bind_readFl {s t : State} {f : Byte → Except FaultCause State}
    (h : finish s (readFl s >>= f) = .next t) :
    (s.flWritten = true ∧ finish s (f s.fl) = .next t) ∨ ∃ c, HandlerCause c ∧ t = takeFault c s := by
  cases hb : readFl s with
  | ok v =>
    obtain ⟨hw, rfl⟩ := readFl_eq_ok.1 hb
    exact .inl ⟨hw, by rwa [hb] at h⟩
  | error c =>
    rw [hb, error_bind, finish_error, Host.Outcome.next.injEq] at h
    exact .inr ⟨c, by simp [HandlerCause, (readFl_eq_error.1 hb).2], h.symm⟩

theorem finish_bind_readOne {b : Byte} {s t : State} {f : RegIndex × Byte → Except FaultCause State}
    (h : finish s (readOne b s >>= f) = .next t) :
    (∃ r, b = regByte r ∧ s.isWritten r = true ∧ finish s (f (r, s.reg r)) = .next t) ∨
      ∃ c, HandlerCause c ∧ t = takeFault c s := by
  cases hb : readOne b s with
  | ok p =>
    obtain ⟨r, hr, hw, rfl⟩ := readOne_eq_ok.1 hb
    exact .inl ⟨r, hr, hw, by rwa [hb] at h⟩
  | error c =>
    rw [hb, error_bind, finish_error, Host.Outcome.next.injEq] at h
    refine .inr ⟨c, ?_, h.symm⟩
    rcases readOne_eq_error.1 hb with ⟨-, rfl⟩ | ⟨_, -, -, rfl⟩ <;> simp [HandlerCause]

theorem finish_bind_readPair {a b : Byte} {s t : State} {f : RegIndex × Byte × Byte → Except FaultCause State}
    (h : finish s (readPair a b s >>= f) = .next t) :
    (∃ ra rb, a = regByte ra ∧ b = regByte rb ∧ s.isWritten ra = true ∧ s.isWritten rb = true ∧
      finish s (f (ra, s.reg ra, s.reg rb)) = .next t) ∨ ∃ c, HandlerCause c ∧ t = takeFault c s := by
  cases hb : readPair a b s with
  | ok p =>
    obtain ⟨ra, rb, ha, hb', hwa, hwb, rfl⟩ := readPair_eq_ok.1 hb
    exact .inl ⟨ra, rb, ha, hb', hwa, hwb, by rwa [hb] at h⟩
  | error c =>
    rw [hb, error_bind, finish_error, Host.Outcome.next.injEq] at h
    refine .inr ⟨c, ?_, h.symm⟩
    rcases readPair_eq_error hb with rfl | rfl <;> simp [HandlerCause]

theorem finish_bind_pushByte {v : Byte} {s t : State} {f : State → Except FaultCause State}
    (h : finish s (pushByte v s >>= f) = .next t) :
    (s.isWritten Config.spIndex = true ∧ s.reg Config.spIndex ≠ 0 ∧
      finish s (f (storeByte (s.reg Config.spIndex - 1).toNat v
        (writeReg Config.spIndex (s.reg Config.spIndex - 1) s))) = .next t) ∨
      ∃ c, HandlerCause c ∧ t = takeFault c s := by
  rw [pushByte_eq] at h
  split at h
  · exact .inr ⟨.unwrittenRegister, by simp [HandlerCause], by simpa [eq_comm] using h⟩
  · rename_i hw
    split at h
    · exact .inr ⟨.stackOverflow, by simp [HandlerCause], by simpa [eq_comm] using h⟩
    · exact .inl ⟨by simpa using hw, ‹_›, h⟩

theorem finish_bind_popByte {s t : State} {f : Byte × State → Except FaultCause State}
    (h : finish s (popByte s >>= f) = .next t) :
    (s.isWritten Config.spIndex = true ∧ s.reg Config.spIndex ≠ 255 ∧
      finish s (f (Memory.read s.mem (s.reg Config.spIndex).toNat,
        writeReg Config.spIndex (s.reg Config.spIndex + 1) s)) = .next t) ∨
      ∃ c, HandlerCause c ∧ t = takeFault c s := by
  rw [popByte_eq] at h
  split at h
  · exact .inr ⟨.unwrittenRegister, by simp [HandlerCause], by simpa [eq_comm] using h⟩
  · rename_i hw
    split at h
    · exact .inr ⟨.stackUnderflow, by simp [HandlerCause], by simpa [eq_comm] using h⟩
    · exact .inl ⟨by simpa using hw, ‹_›, h⟩

theorem finish_ok_eq_next {s t u : State} (h : finish s (.ok u) = .next t) : t = u := by
  simpa [eq_comm] using h

theorem finish_aluPair {f : Byte → Byte → Byte} {a b : Byte} {s t : State}
    (h : finish s (aluPair f a b s) = .next t) :
    (∃ ra rb, a = regByte ra ∧ b = regByte rb ∧ s.isWritten ra = true ∧ s.isWritten rb = true ∧
      t = writeReg ra (f (s.reg ra) (s.reg rb)) s) ∨ ∃ c, HandlerCause c ∧ t = takeFault c s := by
  refine (finish_bind_readPair h).imp_left ?_
  rintro ⟨ra, rb, ha, hb, hwa, hwb, h⟩
  exact ⟨ra, rb, ha, hb, hwa, hwb, finish_ok_eq_next h⟩

theorem finish_conditionalJump {k : Bool} {b : Byte} {s t : State}
    (h : finish s (conditionalJump k b s) = .next t) :
    (∃ r, b = regByte r ∧ s.flWritten = true ∧
      ((flagE s.fl = k ∧ s.isWritten r = true ∧ t = jumpTo (s.reg r) s) ∨ (flagE s.fl ≠ k ∧ t = skipJump s))) ∨
      ∃ c, HandlerCause c ∧ t = takeFault c s := by
  rcases finish_bind_ridx h with ⟨r, hr, h⟩ | h
  · rcases finish_bind_readFl h with ⟨hf, h⟩ | h
    · split at h
      · rename_i hk
        refine (finish_bind_readReg h).imp_left ?_
        rintro ⟨hw, h⟩
        exact ⟨r, hr, hf, .inl ⟨hk, hw, finish_ok_eq_next h⟩⟩
      · exact .inl ⟨r, hr, hf, .inr ⟨‹_›, finish_ok_eq_next h⟩⟩
    · exact .inr h
  · exact .inr h

/-- Everything an instruction can do: complete with its effect, or take a handler's fault on the state it found (R150,
R160, R161). -/
theorem exec_cases {i : Instr} {s t : State} (h : exec i s = .next t) :
    Effect i s t ∨ ∃ c, HandlerCause c ∧ t = takeFault c s := by
  cases i with
  | hlt => exact .inl (finish_ok_eq_next (s := s) h)
  | ldi b imm =>
    refine (finish_bind_ridx h).imp_left ?_
    rintro ⟨r, hr, h⟩
    exact ⟨r, hr, finish_ok_eq_next h⟩
  | prn b =>
    refine (finish_bind_readOne h).imp_left ?_
    rintro ⟨r, hr, hw, h⟩
    exact ⟨r, hr, hw, finish_ok_eq_next h⟩
  | st a b =>
    refine (finish_bind_readPair h).imp_left ?_
    rintro ⟨ra, rb, ha, hb, hwa, hwb, h⟩
    simp only [memWrite_byte] at h
    exact ⟨ra, rb, ha, hb, hwa, hwb, finish_ok_eq_next h⟩
  | push b =>
    rcases finish_bind_readOne h with ⟨r, hr, hw, h⟩ | h
    · have h' : finish s (pushByte (s.reg r) s >>= Except.ok) = .next t := by
        cases hp : pushByte (s.reg r) s <;> simpa [hp] using h
      refine (finish_bind_pushByte h').imp_left ?_
      rintro ⟨h7, h0, h⟩
      exact ⟨r, hr, hw, h7, h0, finish_ok_eq_next h⟩
    · exact .inr h
  | pop b =>
    rcases finish_bind_ridx h with ⟨r, hr, h⟩ | h
    · refine (finish_bind_popByte h).imp_left ?_
      rintro ⟨h7, h0, h⟩
      exact ⟨r, hr, h7, h0, finish_ok_eq_next h⟩
    · exact .inr h
  | call b =>
    rcases finish_bind_readOne h with ⟨r, hr, hw, h⟩ | h
    · refine (finish_bind_pushByte h).imp_left ?_
      rintro ⟨h7, h0, h⟩
      exact ⟨r, hr, hw, h7, h0, finish_ok_eq_next h⟩
    · exact .inr h
  | ret =>
    refine (finish_bind_popByte h).imp_left ?_
    rintro ⟨h7, h0, h⟩
    exact ⟨h7, h0, finish_ok_eq_next h⟩
  | jmp b =>
    refine (finish_bind_readOne h).imp_left ?_
    rintro ⟨r, hr, hw, h⟩
    exact ⟨r, hr, hw, finish_ok_eq_next h⟩
  | jeq b => simpa [Effect] using finish_conditionalJump h
  | jne b => simpa [Effect] using finish_conditionalJump h
  | add a b => exact finish_aluPair h
  | addi b imm =>
    refine (finish_bind_readOne h).imp_left ?_
    rintro ⟨r, hr, hw, h⟩
    exact ⟨r, hr, hw, finish_ok_eq_next h⟩
  | sub a b => exact finish_aluPair h
  | mul a b => exact finish_aluPair h
  | cmp a b =>
    refine (finish_bind_readPair h).imp_left ?_
    rintro ⟨ra, rb, ha, hb, hwa, hwb, h⟩
    exact ⟨ra, rb, ha, hb, hwa, hwb, finish_ok_eq_next h⟩

/-- A handler's outcome is always a next state. -/
theorem finish_next (s : State) (r : Except FaultCause State) : ∃ t, finish s r = .next t := by
  cases r <;> exact ⟨_, rfl⟩

/-- An instruction always answers a next state (R96). -/
theorem exec_next (i : Instr) (s : State) : ∃ t, exec i s = .next t := by
  cases i with
  | hlt => exact ⟨_, rfl⟩
  | _ => exact finish_next s _

/-- An instruction whose effect is possible has it: the converse of `exec_cases`. -/
theorem exec_of_effect {i : Instr} {s t : State} (h : Effect i s t) : exec i s = .next t := by
  cases i with
  | hlt => rw [show t = halt s from h]; rfl
  | ldi b imm =>
    obtain ⟨r, rfl, rfl⟩ := h
    simp [exec, execLdi, immediate]
  | prn b =>
    obtain ⟨r, rfl, hw, rfl⟩ := h
    simp [exec, execPrn, readOne_written hw]
  | st a b =>
    obtain ⟨ra, rb, rfl, rfl, hwa, hwb, rfl⟩ := h
    simp only [exec, execSt, readPair_written hwa hwb, ok_bind, memWrite_byte, finish_ok]
  | push b =>
    obtain ⟨r, rfl, hw, h7, h0, rfl⟩ := h
    simp only [exec, execPush, readOne_written hw, ok_bind, pushByte_ok h7 h0, finish_ok]
  | pop b =>
    obtain ⟨r, rfl, h7, h0, rfl⟩ := h
    simp only [exec, execPop, ridx_regByte, ok_bind, popByte_ok h7 h0, finish_ok]
  | call b =>
    obtain ⟨r, rfl, hw, h7, h0, rfl⟩ := h
    simp only [exec, execCall, readOne_written hw, ok_bind, pushByte_ok h7 h0, finish_ok]
  | ret =>
    obtain ⟨h7, h0, rfl⟩ := h
    simp only [exec, execRet, ok_bind, popByte_ok h7 h0, finish_ok]
  | jmp b =>
    obtain ⟨r, rfl, hw, rfl⟩ := h
    simp only [exec, execJmp, readOne_written hw, ok_bind, finish_ok]
  | jeq b =>
    obtain ⟨r, rfl, hf, ⟨hk, hw, rfl⟩ | ⟨hk, rfl⟩⟩ := h
    · simp [exec, execJeq, conditionalJump, readFl_written hf, hk, readReg_written hw]
    · simp [exec, execJeq, conditionalJump, readFl_written hf, hk]
  | jne b =>
    obtain ⟨r, rfl, hf, ⟨hk, hw, rfl⟩ | ⟨hk, rfl⟩⟩ := h
    · simp [exec, execJne, conditionalJump, readFl_written hf, hk, readReg_written hw]
    · simp [exec, execJne, conditionalJump, readFl_written hf, hk]
  | add a b =>
    obtain ⟨ra, rb, rfl, rfl, hwa, hwb, rfl⟩ := h
    simp [exec, execAdd, aluPair, readPair_written hwa hwb]
  | addi b imm =>
    obtain ⟨r, rfl, hw, rfl⟩ := h
    simp [exec, execAddi, immediate, readOne_written hw]
  | sub a b =>
    obtain ⟨ra, rb, rfl, rfl, hwa, hwb, rfl⟩ := h
    simp [exec, execSub, aluPair, readPair_written hwa hwb]
  | mul a b =>
    obtain ⟨ra, rb, rfl, rfl, hwa, hwb, rfl⟩ := h
    simp [exec, execMul, aluPair, readPair_written hwa hwb]
  | cmp a b =>
    obtain ⟨ra, rb, rfl, rfl, hwa, hwb, rfl⟩ := h
    simp [exec, execCmp, readPair_written hwa hwb]

end Sys2Proof.Machine
end

