-- ==== Sys2Proof/Laws/Memory.lean ====
section
/-! SUPPORT. Memory: every operation keeps the canonical form, a read after a write, equal memories are equal lists. -/

namespace Sys2Proof.Machine

@[simp] theorem Memory.read_nil (a : Nat) : Memory.read [] a = Memory.unlisted := rfl

theorem Memory.wf_nil : Memory.wf [] := ⟨.nil, by simp⟩

theorem Memory.wf_tail {c : Host.Cell} {m : Memory} (h : Memory.wf (c :: m)) : Memory.wf m :=
  ⟨(List.pairwise_cons.1 h.1).2, fun d hd => h.2 d (List.mem_cons_of_mem _ hd)⟩

/-- Below and between the listed addresses a memory reads as unlisted. -/
theorem Memory.read_of_forall_ne {m : Memory} {a : Nat} (h : ∀ c ∈ m, c.1 ≠ a) :
    Memory.read m a = Memory.unlisted := by
  induction m with
  | nil => rfl
  | cons c m ih =>
    rw [Memory.read, if_neg (h c (by simp))]
    exact ih fun d hd => h d (by simp [hd])

theorem Memory.read_tail_head {c : Host.Cell} {m : Memory} (h : Memory.wf (c :: m)) {a : Nat} (ha : a ≤ c.1) :
    Memory.read m a = Memory.unlisted :=
  Memory.read_of_forall_ne fun d hd => by
    have := (List.pairwise_cons.1 h.1).1 d hd
    omega

/-- A read after a write to another address (R58). -/
theorem Memory.read_write_ne {a b : Nat} (hab : b ≠ a) (v : Byte) (m : Memory) :
    Memory.read (Memory.write m a v) b = Memory.read m b := by
  induction m with
  | nil =>
    simp only [Memory.write]
    split <;> simp [Memory.read, hab.symm]
  | cons c m ih =>
    simp only [Memory.write]
    split
    · split <;> simp [Memory.read, hab.symm]
    · split
      · rename_i h
        split <;> simp [Memory.read, ← h, hab.symm]
      · simp [Memory.read, ih]

/-- A read after a write to the same address (R58). -/
theorem Memory.read_write_same {m : Memory} (h : Memory.wf m) (a : Nat) (v : Byte) :
    Memory.read (Memory.write m a v) a = v := by
  induction m with
  | nil =>
    simp only [Memory.write]
    split <;> simp [Memory.read, *]
  | cons c m ih =>
    simp only [Memory.write]
    split
    · rename_i hlt
      split
      · rename_i hv
        rw [Memory.read, if_neg (by omega), hv]
        exact Memory.read_tail_head h hlt.le
      · simp [Memory.read]
    · split
      · rename_i he
        split
        · rename_i hv
          rw [hv]
          exact Memory.read_tail_head h he.le
        · simp [Memory.read]
      · rw [Memory.read, if_neg (by omega)]
        exact ih (Memory.wf_tail h)

theorem Memory.read_write {m : Memory} (h : Memory.wf m) (a b : Nat) (v : Byte) :
    Memory.read (Memory.write m a v) b = if b = a then v else Memory.read m b := by
  split
  · rename_i hb
    rw [hb, Memory.read_write_same h]
  · rename_i hb
    exact Memory.read_write_ne hb v m

/-- Every cell of a written memory is an old cell or the written one. -/
theorem Memory.mem_write {m : Memory} {a : Nat} {v : Byte} {c : Host.Cell} (h : c ∈ Memory.write m a v) :
    c ∈ m ∨ (c = (a, v) ∧ v ≠ Memory.unlisted) := by
  induction m with
  | nil =>
    simp only [Memory.write] at h
    split at h <;> simp_all
  | cons d m ih =>
    simp only [Memory.write] at h
    split at h
    · split at h
      · exact .inl h
      · rcases List.mem_cons.1 h with h | h
        · exact .inr ⟨h, ‹_›⟩
        · exact .inl h
    · split at h
      · split at h
        · exact .inl (by simp [h])
        · rcases List.mem_cons.1 h with h | h
          · exact .inr ⟨h, ‹_›⟩
          · exact .inl (by simp [h])
      · rcases List.mem_cons.1 h with h | h
        · exact .inl (by simp [h])
        · rcases ih h with h | h
          · exact .inl (by simp [h])
          · exact .inr h

/-- A write keeps the canonical form. -/
theorem Memory.wf_write {m : Memory} (h : Memory.wf m) {a : Nat} (ha : a < Config.memSize) (v : Byte) :
    Memory.wf (Memory.write m a v) := by
  refine ⟨?_, fun c hc => ?_⟩
  · induction m with
    | nil =>
      simp only [Memory.write]
      split <;> simp
    | cons c m ih =>
      have hp := List.pairwise_cons.1 h.1
      simp only [Memory.write]
      split
      · split
        · exact h.1
        · refine List.pairwise_cons.2 ⟨fun d hd => ?_, h.1⟩
          rcases List.mem_cons.1 hd with rfl | hd
          · assumption
          · have := hp.1 d hd
            simp only
            omega
      · split
        · split
          · exact hp.2
          · refine List.pairwise_cons.2 ⟨fun d hd => ?_, hp.2⟩
            have := hp.1 d hd
            simp only
            omega
        · refine List.pairwise_cons.2 ⟨fun d hd => ?_, ih (Memory.wf_tail h)⟩
          rcases Memory.mem_write hd with hd | ⟨rfl, -⟩
          · exact hp.1 d hd
          · simp only
            omega
  · rcases Memory.mem_write hc with hc | ⟨rfl, hv⟩
    · exact h.2 c hc
    · exact ⟨ha, hv⟩

/-- Writing bytes inside 0..255 keeps the canonical form. -/
theorem Memory.wf_writeBytes {m : Memory} (h : Memory.wf m) {a : Nat} {vs : List Byte}
    (ha : a + vs.length ≤ Config.memSize) : Memory.wf (Memory.writeBytes m a vs) := by
  induction vs generalizing m a with
  | nil => exact h
  | cons v vs ih =>
    simp only [List.length_cons] at ha
    exact ih (Memory.wf_write h (by omega) v) (by omega)

/-- What a memory reads as after bytes were written from an address upward. -/
theorem Memory.read_writeBytes {m : Memory} (h : Memory.wf m) {a : Nat} {vs : List Byte}
    (ha : a + vs.length ≤ Config.memSize) (b : Nat) :
    Memory.read (Memory.writeBytes m a vs) b =
      if a ≤ b ∧ b < a + vs.length then vs.getD (b - a) 0 else Memory.read m b := by
  induction vs generalizing m a with
  | nil =>
    rw [if_neg (by simp only [List.length_nil]; omega)]
    rfl
  | cons v vs ih =>
    simp only [List.length_cons] at ha ⊢
    rw [Memory.writeBytes, ih (Memory.wf_write h (by omega) v) (by omega), Memory.read_write h]
    rcases Nat.lt_trichotomy b a with hb | rfl | hb
    · rw [if_neg (by omega), if_neg (by omega), if_neg (by omega)]
    · rw [if_neg (by omega), if_pos rfl, if_pos (by omega)]
      simp
    · obtain ⟨k, rfl⟩ : ∃ k, b = a + 1 + k := ⟨b - (a + 1), by omega⟩
      have hk : a + 1 + k - a = k + 1 := by omega
      have hk' : a + 1 + k - (a + 1) = k := by omega
      by_cases hlt : k < vs.length
      · rw [if_pos (by omega), if_pos (by omega), hk, hk', List.getD_cons_succ]
      · rw [if_neg (by omega), if_neg (by omega), if_neg (by omega)]

/-- Memories in canonical form that read alike are equal lists. -/
theorem Memory.ext_read {m n : Memory} (hm : Memory.wf m) (hn : Memory.wf n)
    (h : ∀ a, Memory.read m a = Memory.read n a) : m = n := by
  induction m generalizing n with
  | nil =>
    cases n with
    | nil => rfl
    | cons d n =>
      have := h d.1
      rw [Memory.read_nil, Memory.read, if_pos rfl] at this
      exact absurd this.symm (hn.2 d (by simp)).2
  | cons c m ih =>
    cases n with
    | nil =>
      have := h c.1
      rw [Memory.read_nil, Memory.read, if_pos rfl] at this
      exact absurd this (hm.2 c (by simp)).2
    | cons d n =>
      have hc := h c.1
      have hd := h d.1
      rw [Memory.read, if_pos rfl, Memory.read] at hc
      rw [Memory.read, Memory.read, if_pos rfl] at hd
      have hcd : c.1 = d.1 := by
        by_contra hne
        rw [if_neg (Ne.symm hne)] at hc
        rw [if_neg hne] at hd
        rcases Nat.lt_or_gt_of_ne hne with hlt | hlt
        · exact (hm.2 c (by simp)).2 (hc.trans (Memory.read_tail_head hn hlt.le))
        · exact (hn.2 d (by simp)).2 (hd.symm.trans (Memory.read_tail_head hm hlt.le))
      rw [if_pos hcd.symm] at hc
      have htail : m = n := by
        refine ih (Memory.wf_tail hm) (Memory.wf_tail hn) fun a => ?_
        by_cases ha : c.1 = a
        · rw [Memory.read_tail_head hm (by omega), Memory.read_tail_head hn (by omega)]
        · have := h a
          rwa [Memory.read, if_neg ha, Memory.read, if_neg (by omega)] at this
      rw [htail, Prod.ext hcd hc]

end Sys2Proof.Machine
end

