-- ==== Sys2Proof/Laws/PerInstr.lean ====
section
/-! SUPPORT. Laws of the instructions as syntax, one lemma a constructor. Family `EncodingLength`: an instruction's bytes are its opcode and as many operand bytes as its row counts, whatever the opcode table (spec/30_encoding.md R70). -/

namespace Sys2Proof.Laws.EncodingLength

def Statement (i : Instr) : Prop :=
  ∀ m : OpcodeMap, (encodeWith m i).head? = some (opcodeByte m i) ∧
    (encodeWith m i).length = 1 + (opcodeRow m i).count.toNat

theorem hlt : Statement .hlt := fun _ => ⟨rfl, rfl⟩
theorem ldi (r imm : Byte) : Statement (.ldi r imm) := fun _ => ⟨rfl, rfl⟩
theorem prn (r : Byte) : Statement (.prn r) := fun _ => ⟨rfl, rfl⟩
theorem st (a b : Byte) : Statement (.st a b) := fun _ => ⟨rfl, rfl⟩
theorem push (r : Byte) : Statement (.push r) := fun _ => ⟨rfl, rfl⟩
theorem pop (r : Byte) : Statement (.pop r) := fun _ => ⟨rfl, rfl⟩
theorem call (r : Byte) : Statement (.call r) := fun _ => ⟨rfl, rfl⟩
theorem ret : Statement .ret := fun _ => ⟨rfl, rfl⟩
theorem jmp (r : Byte) : Statement (.jmp r) := fun _ => ⟨rfl, rfl⟩
theorem jeq (r : Byte) : Statement (.jeq r) := fun _ => ⟨rfl, rfl⟩
theorem jne (r : Byte) : Statement (.jne r) := fun _ => ⟨rfl, rfl⟩
theorem add (a b : Byte) : Statement (.add a b) := fun _ => ⟨rfl, rfl⟩
theorem addi (r imm : Byte) : Statement (.addi r imm) := fun _ => ⟨rfl, rfl⟩
theorem sub (a b : Byte) : Statement (.sub a b) := fun _ => ⟨rfl, rfl⟩
theorem mul (a b : Byte) : Statement (.mul a b) := fun _ => ⟨rfl, rfl⟩
theorem cmp (a b : Byte) : Statement (.cmp a b) := fun _ => ⟨rfl, rfl⟩

end Sys2Proof.Laws.EncodingLength
end

