-- ==== Sys2Proof/Laws/Step.lean ====
section
/-! SUPPORT. What a step can do, said once, and what the engine's PC advance leaves alone. -/

namespace Sys2Proof.Machine

/-! ### `advancePc` changes pc alone -/

theorem advancePc_eq (d : Decoded) (t : State) : advancePc d t = { t with pc := (advancePc d t).pc } := by
  unfold advancePc
  split <;> rfl

@[simp] theorem advancePc_reg (d : Decoded) (t : State) (q : RegIndex) : (advancePc d t).reg q = t.reg q := by
  rw [advancePc_eq]; rfl
@[simp] theorem advancePc_isWritten (d : Decoded) (t : State) (q : RegIndex) :
    (advancePc d t).isWritten q = t.isWritten q := by
  rw [advancePc_eq]; rfl
@[simp] theorem advancePc_x (d : Decoded) (t : State) : (advancePc d t).x = t.x := by rw [advancePc_eq]
@[simp] theorem advancePc_xWritten (d : Decoded) (t : State) : (advancePc d t).xWritten = t.xWritten := by
  rw [advancePc_eq]
@[simp] theorem advancePc_fl (d : Decoded) (t : State) : (advancePc d t).fl = t.fl := by rw [advancePc_eq]
@[simp] theorem advancePc_flWritten (d : Decoded) (t : State) : (advancePc d t).flWritten = t.flWritten := by
  rw [advancePc_eq]
@[simp] theorem advancePc_mem (d : Decoded) (t : State) : (advancePc d t).mem = t.mem := by rw [advancePc_eq]
@[simp] theorem advancePc_run (d : Decoded) (t : State) : (advancePc d t).run = t.run := by rw [advancePc_eq]
@[simp] theorem advancePc_output (d : Decoded) (t : State) : (advancePc d t).output = t.output := by rw [advancePc_eq]
@[simp] theorem advancePc_ir (d : Decoded) (t : State) : (advancePc d t).ir = t.ir := by rw [advancePc_eq]
@[simp] theorem advancePc_operandA (d : Decoded) (t : State) : (advancePc d t).operandA = t.operandA := by
  rw [advancePc_eq]
@[simp] theorem advancePc_operandB (d : Decoded) (t : State) : (advancePc d t).operandB = t.operandB := by
  rw [advancePc_eq]

theorem advancePc_not_running {d : Decoded} {t : State} (h : t.run ≠ .running) : advancePc d t = t := by
  rw [advancePc, if_neg (fun hh => h hh.1)]

/-! ### The step -/

theorem stopReason_eq_none {r : RunState} : stopReason r = none ↔ r = .running := by
  cases r <;> simp [stopReason]

/-- Everything a step can do (R96): the fetch faults, dispatch faults, or the decoded instruction runs on the latched
state and the engine advances pc. -/
theorem step_cases {m : OpcodeMap} {s t : State} (h : stepWith m s = .next t) :
    s.run = .running ∧
    ((255 < s.pc.toNat + 2 ∧ t = takeFault .fetchOutOfRange s) ∨
     (s.pc.toNat + 2 ≤ 255 ∧ ∃ c, decodeWith m (latch s).ir (latch s).operandA (latch s).operandB = .error c ∧
        t = takeFault c (latch s)) ∨
     (s.pc.toNat + 2 ≤ 255 ∧ ∃ i u, decodeWith m (latch s).ir (latch s).operandA (latch s).operandB = .ok i ∧
        exec i (latch s) = .next u ∧ t = advancePc (decodeOpcode (latch s).ir) u)) := by
  unfold stepWith at h
  split at h
  · cases h
  · rename_i hr
    refine ⟨stopReason_eq_none.1 hr, ?_⟩
    unfold fetch at h
    by_cases hp : s.pc.toNat + 2 > 255
    · simp only [hp, if_true, Host.Outcome.next.injEq] at h
      exact .inl ⟨hp, h.symm⟩
    · simp only [hp, if_false] at h
      split at h
      · rename_i c hc
        exact .inr (.inl ⟨by omega, c, hc, by simpa [eq_comm] using h⟩)
      · rename_i i hi
        obtain ⟨u, hu⟩ := exec_next i (latch s)
        rw [hu] at h
        exact .inr (.inr ⟨by omega, i, u, hi, hu, by simpa [afterHandler, eq_comm] using h⟩)

/-- A step whose fetch and dispatch succeed is the instruction and then the engine's advance. -/
theorem step_of_decode {m : OpcodeMap} {s u : State} {i : Instr} (hr : s.run = .running)
    (hp : s.pc.toNat + 2 ≤ 255) (hd : decodeWith m (latch s).ir (latch s).operandA (latch s).operandB = .ok i)
    (hu : exec i (latch s) = .next u) : stepWith m s = .next (advancePc (decodeOpcode (latch s).ir) u) := by
  unfold stepWith fetch
  rw [stopReason_eq_none.2 hr, if_neg (by omega)]
  simp only [hd, hu, afterHandler]

/-- `withFetchWord` puts the table word's instruction where the next step fetches it, and lets it run. -/
theorem withFetchWord_decodes {s : State} (hm : Memory.wf s.mem) {nbits w : Nat} {i : Instr}
    (h : decodeTableWord nbits w = some i) :
    (s.withFetchWord nbits w).run = .running ∧ (s.withFetchWord nbits w).pc.toNat + 2 ≤ 255 ∧
      decodeWith opcodeMap (latch (s.withFetchWord nbits w)).ir (latch (s.withFetchWord nbits w)).operandA
        (latch (s.withFetchWord nbits w)).operandB = .ok i := by
  set p : Pc := if s.pc.toNat + 2 > 255 then 0 else s.pc with hp
  have hp2 : p.toNat + 2 ≤ 255 := by
    rw [hp]
    split
    · simp
    · omega
  refine ⟨rfl, hp2, ?_⟩
  have hread : ∀ k < 3, Memory.read (Memory.writeBytes s.mem p.toNat
      [tableByte nbits w 0, tableByte nbits w 1, tableByte nbits w 2]) (p.toNat + k) = tableByte nbits w k := by
    intro k hk
    rw [Memory.read_writeBytes hm (by simp [Config.memSize]; omega), if_pos (by simp; omega)]
    rcases k with _ | _ | _ | k
    · simp
    · simp
    · simp
    · omega
  have h0 : (latch (s.withFetchWord nbits w)).ir = tableByte nbits w 0 := hread 0 (by omega)
  have h1 : (latch (s.withFetchWord nbits w)).operandA = tableByte nbits w 1 := hread 1 (by omega)
  have h2 : (latch (s.withFetchWord nbits w)).operandB = tableByte nbits w 2 := hread 2 (by omega)
  rw [h0, h1, h2]
  unfold decodeTableWord decode at h
  split at h
  · rw [← Option.some.inj h]
    assumption
  · cases h

end Sys2Proof.Machine
end

