-- ==== Sys2Proof/Tests/Slice0.lean ====
section
/-! SUPPORT. The model's own tests: well-formedness, decoding of written-out words, single instructions against the spec's vectors (spec/95_test_vectors.md V<n>, or the example of the instruction's rule), and a witness for the hypotheses of each statement. -/

namespace Sys2Proof.Tests

open Sys2Proof.Machine

/-! ### Small states -/

/-- Reset with some registers written. -/
def withRegs (regs : List (RegIndex × Byte)) : State := regs.foldl (fun s p => writeReg p.1 p.2 s) State.reset

/-- Reset with some registers written, FL written if given, and bytes placed at pc. -/
def placed (regs : List (RegIndex × Byte)) (fl : Option Byte) (pc : Pc) (bytes : List Byte) : State :=
  let s := { withRegs regs with pc := pc, mem := Memory.writeBytes [] pc.toNat bytes }
  match fl with
  | some v => writeFl v s
  | none => s

def nextOf : Host.Outcome State Fault Refusal → Option State
  | .next t => some t
  | .fault _ => none
  | .refused _ => none

/-- One instruction, and what is looked at in its next state. -/
def after {α : Type} (i : Instr) (s : State) (look : State → α) : Option α := (nextOf (exec i s)).map look

/-- One step, and what is looked at in its next state. -/
def stepped {α : Type} (s : State) (look : State → α) : Option α := (nextOf (step s)).map look

/-! ### WellFormed: each check refuses an ill-formed term, and an immediate is never checked -/

theorem test_wellFormed_refuses_index_8 :
    [Instr.ldi 8 0, .prn 8, .st 8 0, .st 0 8, .push 8, .pop 8, .call 8, .jmp 8, .jeq 8, .jne 8, .add 8 0, .add 0 8,
      .addi 8 0, .sub 8 0, .sub 0 8, .mul 8 0, .mul 0 8, .cmp 8 0, .cmp 0 8].all (fun i => !i.wellFormed) = true := by
  decide

theorem test_wellFormed_accepts_index_7 :
    [Instr.hlt, .ret, .ldi 7 255, .prn 7, .st 7 7, .push 7, .pop 7, .call 7, .jmp 7, .jeq 7, .jne 7, .add 7 7,
      .addi 7 255, .sub 7 7, .mul 7 7, .cmp 7 7].all Instr.wellFormed = true := by
  decide

/-! ### Decode: every instruction's word, written from R74's binary column -/

theorem test_decode_general :
    decode 0b00000001 0xAA 0xBB = .ok .hlt ∧ decode 0b10000010 0x00 0x08 = .ok (.ldi 0 8) ∧
    decode 0b01000111 0x01 0xBB = .ok (.prn 1) ∧ decode 0b10000100 0x02 0x03 = .ok (.st 2 3) := by decide

theorem test_decode_stack :
    decode 0b01000101 0x04 0xBB = .ok (.push 4) ∧ decode 0b01000110 0x05 0xBB = .ok (.pop 5) := by decide

theorem test_decode_control :
    decode 0b01010000 0x01 0xBB = .ok (.call 1) ∧ decode 0b00010001 0xAA 0xBB = .ok .ret ∧
    decode 0b01010100 0x02 0xBB = .ok (.jmp 2) ∧ decode 0b01010101 0x03 0xBB = .ok (.jeq 3) ∧
    decode 0b01010110 0x04 0xBB = .ok (.jne 4) := by decide

theorem test_decode_alu :
    decode 0b10100000 0x00 0x01 = .ok (.add 0 1) ∧ decode 0b10100101 0x00 0x0A = .ok (.addi 0 10) ∧
    decode 0b10100001 0x01 0x00 = .ok (.sub 1 0) ∧ decode 0b10100010 0x06 0x07 = .ok (.mul 6 7) ∧
    decode 0b10100111 0x07 0x06 = .ok (.cmp 7 6) := by decide

/-- spec/95_test_vectors.md 2.1. -/
theorem test_decode_illegal :
    decode 0x00 0 0 = .error .unsupportedOperation ∧ decode 0x10 0 0 = .error .unsupportedOperation ∧
    decode 0x20 0 0 = .error .unsupportedAluOperation ∧ decode 0xA3 0 0 = .error .unsupportedAluOperation ∧
    decode 0xC0 0 0 = .error .unsupportedOperation ∧ decode 0xFF 0 0 = .error .unsupportedAluOperation := by decide

/-- A table word counts its bits from the first byte's bit 0, and `nbits` cuts it off. -/
theorem test_decodeTableWord :
    decodeTableWord 24 0x0A00A5 = some (.addi 0 10) ∧ decodeTableWord 8 0x0A00A5 = some (.addi 0 0) ∧
    decodeTableWord 8 0x00 = none := by decide

/-! ### Steps (spec/95_test_vectors.md 2.2) -/

/-- V1, V2. -/
theorem test_step_ldi_at_253 :
    stepped (placed [] none 253 [0x82, 0x00, 0x07]) (fun t => (t.reg 0, t.pc, t.run)) = some (7, 256, .running) := by
  decide

/-- V3, V4: HLT at 254 faults at the fetch, at 253 halts. -/
theorem test_step_hlt_at_the_top :
    stepped (placed [] none 254 [0x01]) (fun t => (t.pc, t.run)) = some (254, .faulted .fetchOutOfRange) ∧
    stepped (placed [] none 253 [0x01]) (fun t => (t.pc, t.run)) = some (253, .halted) := by decide

/-- The first step after reset runs a word placed by `withFetchWord`. -/
theorem test_withFetchWord_first :
    stepped (State.reset.withFetchWord 16 0x0754) (fun t => t.pc) = some 0xF4 := by decide

/-! ### One instruction -/

/-- V4. -/
theorem test_hlt : after .hlt (withRegs []) (fun t => (t.run, t.pc)) = some (.halted, 0) := by decide

/-- V6. -/
theorem test_ldi_sp : after (.ldi 7 0) (withRegs []) (fun t => (t.reg 7, t.isWritten 0)) = some (0, false) := by decide

/-- V10. -/
theorem test_prn_sp : after (.prn 7) (withRegs []) (fun t => t.output) = some [244] := by decide

/-- V9. -/
theorem test_prn_unwritten :
    after (.prn 1) (withRegs []) (fun t => (t.run, t.output)) = some (.faulted .unwrittenRegister, []) := by decide

/-- The first register is the address, the second the value (R113). -/
theorem test_st :
    after (.st 2 0) (withRegs [(0, 10), (2, 200)]) (fun t => (Memory.read t.mem 200, Memory.read t.mem 10)) =
      some (10, 0) := by decide

/-- V15. -/
theorem test_push : after (.push 0) (withRegs [(0, 5)]) (fun t => (t.reg 7, Memory.read t.mem 0xF3)) = some (0xF3, 5) := by
  decide

/-- V18. -/
theorem test_push_sp : after (.push 7) (withRegs []) (fun t => (t.reg 7, Memory.read t.mem 0xF3)) = some (0xF3, 0xF4) := by
  decide

/-- V20. -/
theorem test_pop :
    after (.pop 3) { withRegs [(7, 0xF3)] with mem := [(0xF3, 5)] } (fun t => (t.reg 3, t.reg 7)) = some (5, 0xF4) := by
  decide

/-- V23. -/
theorem test_pop_sp :
    after (.pop 7) { withRegs [(7, 0xF3)] with mem := [(0xF3, 0x80)] } (fun t => t.reg 7) = some 0x80 := by decide

/-- V26. -/
theorem test_call_at_253 :
    after (.call 1) { withRegs [(1, 0)] with pc := 253 } (fun t => (Memory.read t.mem 0xF3, t.pc)) = some (255, 0) := by
  decide

/-- V28. -/
theorem test_call_sp :
    after (.call 7) { withRegs [] with pc := 20 } (fun t => (t.reg 7, Memory.read t.mem 0xF3, t.pc)) =
      some (0xF3, 22, 0xF4) := by decide

/-- V29. -/
theorem test_ret :
    after .ret { withRegs [(7, 0xF3)] with mem := [(0xF3, 8)] } (fun t => (t.reg 7, t.pc)) = some (0xF4, 8) := by decide

/-- V30. -/
theorem test_ret_underflow : after .ret (withRegs [(7, 255)]) (fun t => t.run) = some (.faulted .stackUnderflow) := by decide

/-- V32. -/
theorem test_jmp : after (.jmp 0) (withRegs [(0, 254)]) (fun t => t.pc) = some 254 := by decide

/-- V35. -/
theorem test_jeq_taken : after (.jeq 2) (placed [(2, 22)] (some 1) 0 []) (fun t => t.pc) = some 22 := by decide

/-- V37: not taken, the unwritten register is not read. -/
theorem test_jeq_not_taken : after (.jeq 3) (placed [] (some 2) 18 []) (fun t => t.pc) = some 20 := by decide

/-- V39. -/
theorem test_jne_taken : after (.jne 2) (placed [(2, 9)] (some 4) 0 []) (fun t => t.pc) = some 9 := by decide

/-- V40. -/
theorem test_jne_not_taken : after (.jne 2) (placed [] (some 1) 17 []) (fun t => t.pc) = some 19 := by decide

/-- V42. -/
theorem test_add_wraps : after (.add 0 1) (withRegs [(0, 200), (1, 100)]) (fun t => t.reg 0) = some 44 := by decide

/-- V46. -/
theorem test_addi_wraps : after (.addi 0 10) (withRegs [(0, 250)]) (fun t => t.reg 0) = some 4 := by decide

/-- V49. -/
theorem test_sub_wraps : after (.sub 0 1) (withRegs [(0, 0), (1, 1)]) (fun t => t.reg 0) = some 255 := by decide

/-- V51: the minuend is the first register. -/
theorem test_sub_order : after (.sub 1 0) (withRegs [(0, 44), (1, 100)]) (fun t => t.reg 1) = some 56 := by decide

/-- V55. -/
theorem test_mul_wraps : after (.mul 0 1) (withRegs [(0, 255), (1, 255)]) (fun t => t.reg 0) = some 1 := by decide

/-- V61: unsigned. -/
theorem test_cmp_unsigned : after (.cmp 0 1) (withRegs [(0, 255), (1, 1)]) (fun t => t.fl) = some 2 := by decide

/-- V62, V63. -/
theorem test_cmp_less_and_equal :
    after (.cmp 0 1) (withRegs [(0, 0), (1, 255)]) (fun t => t.fl) = some 4 ∧
    after (.cmp 2 2) (withRegs [(2, 7)]) (fun t => t.fl) = some 1 := by decide

/-! ### Witnesses: the hypotheses of each statement can be met together -/

theorem reset_mem_wf : Memory.wf State.reset.mem := by decide
theorem reset_inv : State.reset.Inv := by decide

theorem witness_DecodeEncodeAgree : opcodeMap.legal ∧ 3 ≤ (encodeWith opcodeMap .ret).length + [0, 0].length := by decide

theorem witness_EncodeDecodeAgree : opcodeMap.legal ∧ decodeWith opcodeMap 0x47 2 0 = .ok (.prn 2) := by decide

theorem witness_IllegalBytesAreRejected : opcodeMap.legal ∧ (∀ row ∈ opcodeRows opcodeMap, row.byte ≠ 0xFF) ∧
    (decodeOpcode 0xC0).count = 3 := by decide

theorem witness_TwoHundredFortyBytesAreIllegal : (ls8Map 0xA3).legal ∧ (ls8Map 0xAF).legal := by decide

/-- At the highest pc a fetch admits. -/
theorem witness_StepRunsTheDecodedInstruction :
    (placed [] none 253 [0x82, 0, 7]).CanFetch ∧ (placed [] none 253 [0x82, 0, 7]).instrAt opcodeMap = .ok (.ldi 0 7) :=
  ⟨by decide, rfl⟩

theorem witness_FetchFaultsNearTheTop :
    (placed [] none 254 []).run = .running ∧ 255 < (placed [] none 254 []).pc.toNat + 2 ∧
    255 < (placed [] none 256 []).pc.toNat + 2 := by decide

/-- 0x00 in the general table, 0xA3 in the ALU table. -/
theorem witness_UnsupportedBytesFault :
    State.reset.CanFetch ∧ (placed [] none 0 [0xA3]).CanFetch ∧
    (Memory.read State.reset.mem 0).getLsbD 5 = false ∧
    Memory.read State.reset.mem 0 ∉ (generalTable opcodeMap).map (·.1) ∧
    (Memory.read (placed [] none 0 [0xA3]).mem 0).getLsbD 5 = true ∧
    Memory.read (placed [] none 0 [0xA3]).mem 0 ∉ (aluTable opcodeMap).map (·.1) := by decide

theorem witness_TerminalStatesTakeNoStep :
    (halt State.reset).run = .halted ∧ (takeFault .stackOverflow State.reset).run = .faulted .stackOverflow := ⟨rfl, rfl⟩

theorem witness_HaltedExactlyByHlt :
    ∃ t, stepWith opcodeMap (placed [] none 253 [0x01]) = .next t ∧ t.run = .halted := ⟨_, rfl, rfl⟩

/-- A fault taken after the fetch, and one taken at it. -/
theorem witness_FaultsArePrecise :
    (∃ t, stepWith opcodeMap (placed [] none 0 [0x47, 1]) = .next t ∧ t.run = .faulted .unwrittenRegister) ∧
    (∃ t, stepWith opcodeMap (placed [] none 256 []) = .next t ∧ t.run = .faulted .fetchOutOfRange) :=
  ⟨⟨_, rfl, rfl⟩, ⟨_, rfl, rfl⟩⟩

theorem witness_DataAddressFaultIsUnreachable :
    ∃ t, stepWith opcodeMap (placed [(0, 255), (1, 1)] none 0 [0x84, 0, 1]) = .next t := ⟨_, rfl⟩

/-- At the highest pc, where the advance reaches 256. -/
theorem witness_SequentialAdvanceIsTheLength :
    opcodeMap.legal ∧ (placed [] none 253 [0x82, 0, 7]).CanFetch ∧
    (placed [] none 253 [0x82, 0, 7]).instrAt opcodeMap = .ok (.ldi 0 7) ∧ (Instr.ldi 0 7).isControl = false ∧
    ∃ t, stepWith opcodeMap (placed [] none 253 [0x82, 0, 7]) = .next t ∧ t.run = .running :=
  ⟨opcodeMap_legal, by decide, rfl, rfl, _, rfl, rfl⟩

/-- One witness for each clause; JEQ and JNE taken and not taken, at the highest pc. -/
theorem witness_ControlFlowInvariant :
    (∃ t, (Instr.prn 7).isControl = false ∧ exec (.prn 7) State.reset = .next t) ∧
    (∃ t, exec (.call (regByte 7)) State.reset = .next t ∧ t.run = .running) ∧
    (∃ t, exec (.jmp (regByte 7)) State.reset = .next t ∧ t.run = .running) ∧
    (∃ t, exec .ret State.reset = .next t ∧ t.run = .running) ∧
    (placed [] (some 1) 253 []).pc.toNat ≤ 253 ∧ (placed [] (some 2) 253 []).pc.toNat ≤ 253 ∧
    (∀ k ∈ [1, 2], ∃ t, exec (.jeq (regByte 7)) (placed [] (some k) 253 []) = .next t ∧ t.run = .running) ∧
    (∀ k ∈ [1, 2], ∃ t, exec (.jne (regByte 7)) (placed [] (some k) 253 []) = .next t ∧ t.run = .running) ∧
    (∃ t u, (placed [] none 0 [0x54, 7]).CanFetch ∧ (placed [] none 0 [0x54, 7]).instrAt opcodeMap = .ok (.jmp 7) ∧
      exec (.jmp 7) (latch (placed [] none 0 [0x54, 7])) = .next t ∧
      stepWith opcodeMap (placed [] none 0 [0x54, 7]) = .next u) :=
  ⟨⟨_, rfl, rfl⟩, ⟨_, rfl, rfl⟩, ⟨_, rfl, rfl⟩, ⟨_, rfl, rfl⟩, by decide, by decide,
    (fun k hk => by obtain rfl | rfl := List.mem_pair.1 hk <;> exact ⟨_, rfl, rfl⟩),
    (fun k hk => by obtain rfl | rfl := List.mem_pair.1 hk <;> exact ⟨_, rfl, rfl⟩),
    ⟨_, _, by decide, rfl, rfl, rfl⟩⟩

theorem witness_StepKeepsInvariant :
    opcodeMap.legal ∧ (placed [] (some 4) 253 [0x82, 0, 7]).Inv ∧
    ∃ t, step (placed [] (some 4) 253 [0x82, 0, 7]) = .next t := ⟨opcodeMap_legal, by decide, _, rfl⟩

/-- A loaded image, and a state one step on. -/
theorem witness_ReachableStatesSatisfyInvariant : ∃ s t, loadImage [0x01] = some s ∧ Reachable opcodeMap s ∧
    stepWith opcodeMap s = .next t ∧ Reachable opcodeMap t :=
  ⟨_, _, rfl, .load [0x01] _ rfl, rfl, .step _ _ (.load [0x01] _ rfl) rfl⟩

theorem witness_WrittenStaysWritten :
    ∃ t, stepWith opcodeMap (placed [] (some 1) 0 [0x46, 7]) = .next t ∧
      (placed [] (some 1) 0 [0x46, 7]).isWritten 7 = true ∧ (placed [] (some 1) 0 [0x46, 7]).flWritten = true :=
  ⟨_, rfl, rfl, rfl⟩

theorem witness_OutputComesOnlyFromPrn : ∃ t, stepWith opcodeMap (placed [] none 0 [0x47, 7]) = .next t ∧
    t.output = [0xF4] := ⟨_, rfl, rfl⟩

/-- One witness for each clause. -/
theorem witness_FlagsWritersAndReaders :
    (∃ t, exec (.add 7 7) (placed [] (some 1) 0 []) = .next t) ∧
    (∃ t u, exec (.cmp 7 7) State.reset = .next t ∧ t.run = .running ∧
      exec (.cmp 7 7) { State.reset with fl := 4, flWritten := true } = .next u) ∧
    (∃ t, exec (.jeq 7) (placed [] (some 1) 0 []) = .next t ∧
      (0xFF : Byte).getLsbD 0 = (placed [] (some 1) 0 []).fl.getLsbD 0) :=
  ⟨⟨_, rfl⟩, ⟨_, _, rfl, rfl, rfl⟩, ⟨_, rfl, rfl⟩⟩

/-- Two states that differ behind clear marks and in the latches. -/
theorem witness_UnwrittenValuesAreUnobservable :
    Alike State.reset { State.reset with x := #v[1, 2, 3, 4, 5, 6, 7, 0xF4], fl := 1, ir := 9 } ∧
    ∃ t, stepWith opcodeMap State.reset = .next t :=
  ⟨⟨rfl, by decide, rfl, by decide, rfl, rfl, rfl, rfl⟩, _, rfl⟩

theorem witness_PrnEmitsTheRegister : State.reset.isWritten 7 = true := by decide

theorem witness_StStoresAtTheRegister :
    Memory.wf (withRegs [(0, 255)]).mem ∧ (withRegs [(0, 255)]).isWritten 0 = true ∧ (withRegs [(0, 255)]).isWritten 7 = true := by
  decide

/-- At the lowest SP a push admits. -/
theorem witness_PushStoresBelowSp :
    Memory.wf (withRegs [(7, 1)]).mem ∧ (withRegs [(7, 1)]).isWritten 7 = true ∧ (withRegs [(7, 1)]).sp ≠ 0 := by decide

/-- At the highest SP a pop admits; POP R7 and POP of another register. -/
theorem witness_PopLoadsFromSp :
    (withRegs [(7, 254)]).isWritten 7 = true ∧ (withRegs [(7, 254)]).sp ≠ 255 ∧ (0 : RegIndex) ≠ 7 := by decide

/-- At the highest pc. -/
theorem witness_CallPushesTheReturnAddress :
    Memory.wf (placed [(1, 0)] none 253 []).mem ∧ (placed [(1, 0)] none 253 []).isWritten 7 = true ∧
    (placed [(1, 0)] none 253 []).isWritten 1 = true ∧ (placed [(1, 0)] none 253 []).sp ≠ 0 ∧
    (placed [(1, 0)] none 253 []).pc.toNat ≤ 253 := by decide

theorem witness_RetJumpsToThePoppedByte : State.reset.isWritten 7 = true ∧ State.reset.sp ≠ 255 := by decide

theorem witness_JmpJumpsToTheRegister : (withRegs [(0, 254)]).isWritten 0 = true := by decide

/-- FL with E set, and with E clear. -/
theorem witness_ConditionalJumpsFollowE :
    (placed [(0, 255)] (some 1) 253 []).flWritten = true ∧ (placed [(0, 255)] (some 1) 253 []).pc.toNat ≤ 253 ∧
    (placed [(0, 255)] (some 1) 253 []).fl.getLsbD 0 = true ∧ (placed [(0, 255)] (some 1) 253 []).isWritten 0 = true ∧
    (placed [(0, 255)] (some 4) 253 []).flWritten = true ∧ (placed [(0, 255)] (some 4) 253 []).pc.toNat ≤ 253 ∧
    (placed [(0, 255)] (some 4) 253 []).fl.getLsbD 0 = false ∧ (placed [(0, 255)] (some 4) 253 []).isWritten 0 = true := by
  decide

theorem witness_AddSubMulWrap :
    (withRegs [(0, 255), (1, 255)]).isWritten 0 = true ∧ (withRegs [(0, 255), (1, 255)]).isWritten 1 = true := by decide

theorem witness_AddiWraps : (withRegs [(0, 255)]).isWritten 0 = true := by decide

/-- Equal, above, below. -/
theorem witness_CmpSetsExactlyOneFlag :
    (withRegs [(0, 5)]).isWritten 0 = true ∧ (withRegs [(0, 5)]).isWritten 7 = true ∧
    ((withRegs [(0, 0xF4)]).reg 0).toNat = ((withRegs [(0, 0xF4)]).reg 7).toNat ∧
    ((withRegs [(0, 255)]).reg 0).toNat > ((withRegs [(0, 255)]).reg 7).toNat ∧
    ((withRegs [(0, 0)]).reg 0).toNat < ((withRegs [(0, 0)]).reg 7).toNat := by decide

/-- One witness for each clause, the last in a state that faults. -/
theorem witness_FrameOfRegisterInstructions :
    (∃ t, exec (.ldi (regByte 0) 5) State.reset = .next t) ∧ (∃ t, exec (.prn (regByte 7)) State.reset = .next t) ∧
    (∃ t, exec (.cmp (regByte 7) (regByte 7)) State.reset = .next t) ∧ (∃ t, exec .hlt State.reset = .next t) ∧
    (∃ t, exec (.jeq (regByte 7)) State.reset = .next t) := ⟨⟨_, rfl⟩, ⟨_, rfl⟩, ⟨_, rfl⟩, ⟨_, rfl⟩, ⟨_, rfl⟩⟩

theorem witness_FrameOfStoringInstructions :
    (∃ t, exec (.st (regByte 7) (regByte 7)) State.reset = .next t) ∧
    (∃ t, exec (.push (regByte 7)) State.reset = .next t) ∧ (∃ t, exec (.call (regByte 7)) (withRegs [(7, 0)]) = .next t) :=
  ⟨⟨_, rfl⟩, ⟨_, rfl⟩, ⟨_, rfl⟩⟩

theorem witness_FrameOfPoppingInstructions :
    (∃ t, exec (.pop (regByte 0)) State.reset = .next t) ∧ (∃ t, exec .ret (withRegs [(7, 255)]) = .next t) :=
  ⟨⟨_, rfl⟩, ⟨_, rfl⟩⟩

/-- A bad index, and an immediate above 7 that is none. -/
theorem witness_BadRegisterIndexFaults : (Instr.jeq 8).wellFormed = false ∧ (Instr.cmp 0 255).wellFormed = false ∧
    State.reset.run = .running ∧ (Instr.ldi 0 255).wellFormed = true ∧ ∃ t, exec (.ldi 0 255) State.reset = .next t :=
  ⟨by decide, by decide, rfl, by decide, _, rfl⟩

/-- One register unwritten, FL with E set and with E clear. -/
theorem witness_UnwrittenRegisterReadFaults :
    State.reset.isWritten 0 = false ∧ State.reset.isWritten 6 = false ∧
    (placed [] (some 1) 0 []).isWritten 0 = false ∧ (placed [] (some 1) 0 []).flWritten = true ∧
    (placed [] (some 1) 0 []).fl.getLsbD 0 = true ∧ (placed [] (some 2) 0 []).isWritten 0 = false ∧
    (placed [] (some 2) 0 []).flWritten = true ∧ (placed [] (some 2) 0 []).fl.getLsbD 0 = false := by decide

theorem witness_UnwrittenFlagsReadFaults : State.reset.flWritten = false := by decide

theorem witness_StackOverflowFaults : (withRegs [(7, 0)]).isWritten 7 = true ∧ (withRegs [(7, 0)]).sp = 0 := by decide

theorem witness_StackUnderflowFaults : (withRegs [(7, 255)]).isWritten 7 = true ∧ (withRegs [(7, 255)]).sp = 255 := by decide

/-- With r2 not R7, and with both R7. -/
theorem witness_PushPopLaw :
    Memory.wf State.reset.mem ∧ State.reset.run = .running ∧
    (∃ t u, exec (.push (regByte 7)) State.reset = .next t ∧ t.run = .running ∧
      exec (.pop (regByte 0)) t = .next u ∧ u.run = .running) ∧
    (∃ t u, exec (.push (regByte 7)) State.reset = .next t ∧ t.run = .running ∧
      exec (.pop (regByte 7)) t = .next u ∧ u.run = .running) :=
  ⟨by decide, rfl, ⟨_, _, rfl, rfl, rfl, rfl⟩, ⟨_, _, rfl, rfl, rfl, rfl⟩⟩

theorem witness_CallRetLaw :
    Memory.wf State.reset.mem ∧ State.reset.run = .running ∧ State.reset.pc.toNat ≤ 253 ∧
    ∃ t v, exec (.call (regByte 7)) State.reset = .next t ∧ t.run = .running ∧ t.isWritten 7 = true ∧
      exec .ret t = .next v := ⟨by decide, rfl, by decide, _, _, rfl, rfl, rfl, rfl⟩

theorem witness_LdiThenPrnEmitsTheImmediate :
    ∃ t u, exec (.ldi (regByte 7) 9) State.reset = .next t ∧ exec (.prn (regByte 7)) t = .next u := ⟨_, _, rfl, rfl⟩

/-- One witness for each clause, each at the edge of its range, where the store meets the next window: ST at the
highest pc, PUSH likewise with the byte below SP the next opcode, CALL with the highest target. -/
theorem witness_StoreIsSeenByTheNextFetch :
    opcodeMap.legal ∧
    (∃ s, s = placed [(0, 253), (1, 1)] none 250 [0x84, 0, 1] ∧ Memory.wf s.mem ∧ s.CanFetch ∧
      s.instrAt opcodeMap = .ok (.st (regByte 0) (regByte 1)) ∧ s.isWritten 0 = true ∧ s.isWritten 1 = true ∧
      s.pc.toNat + 5 ≤ 255) ∧
    (∃ s, s = placed [(0, 1), (7, 254)] none 251 [0x45, 0] ∧ Memory.wf s.mem ∧ s.CanFetch ∧
      s.instrAt opcodeMap = .ok (.push (regByte 0)) ∧ s.isWritten 7 = true ∧ s.isWritten 0 = true ∧ s.sp ≠ 0 ∧
      s.pc.toNat + 4 ≤ 255) ∧
    (∃ s, s = placed [(0, 253), (7, 254)] none 253 [0x50, 0] ∧ Memory.wf s.mem ∧ s.CanFetch ∧
      s.instrAt opcodeMap = .ok (.call (regByte 0)) ∧ s.isWritten 7 = true ∧ s.isWritten 0 = true ∧ s.sp ≠ 0 ∧
      (s.reg 0).toNat + 2 ≤ 255) :=
  ⟨opcodeMap_legal,
    ⟨_, rfl, by decide, by decide, rfl, by decide, by decide, by decide⟩,
    ⟨_, rfl, by decide, by decide, rfl, by decide, by decide, by decide, by decide⟩,
    ⟨_, rfl, by decide, by decide, rfl, by decide, by decide, by decide, by decide⟩⟩

/-- The shortest image, the longest, and one of each refused kind. -/
theorem witness_LoadPlacesTheImage :
    1 ≤ ([1] : List Byte).length ∧ (List.replicate 256 (1 : Byte)).length ≤ 256 ∧ ([] : List Byte).length = 0 ∧
    256 < (List.replicate 257 (1 : Byte)).length :=
  ⟨by decide, by rw [List.length_replicate], rfl, by rw [List.length_replicate]; decide⟩

theorem witness_FirstFetchIsFromAddressZero : ∃ s, loadImage [0x82, 0, 8] = some s := ⟨_, rfl⟩

/-- A PRN that completes, and three steps that are none: another instruction, a PRN of an unwritten register, a fetch
that faults. -/
theorem witness_OneOutputEventPerPrn :
    ((placed [] none 0 [0x47, 7]).CanFetch ∧
      (placed [] none 0 [0x47, 7]).instrAt opcodeMap = .ok (.prn (regByte 7)) ∧
      (placed [] none 0 [0x47, 7]).isWritten 7 = true ∧ ∃ t, stepWith opcodeMap (placed [] none 0 [0x47, 7]) = .next t) ∧
    (∀ s ∈ [placed [] none 0 [0x01], placed [] none 0 [0x47, 1], placed [] none 254 []],
      (¬ ∃ r : RegIndex, s.CanFetch ∧ s.instrAt opcodeMap = .ok (.prn (regByte r)) ∧ s.isWritten r = true) ∧
      ∃ t, stepWith opcodeMap s = .next t) := by
  refine ⟨⟨by decide, rfl, rfl, _, rfl⟩, fun s hs => ?_⟩
  simp only [List.mem_cons, List.not_mem_nil, or_false] at hs
  obtain rfl | rfl | rfl := hs
  · refine ⟨?_, _, rfl⟩
    rintro ⟨r, -, h, -⟩
    have h' : (Except.ok Instr.hlt : Except FaultCause Instr) = .ok (.prn (regByte r)) := h
    cases h'
  · refine ⟨?_, _, rfl⟩
    rintro ⟨r, -, h, hw⟩
    have h' : (Except.ok (Instr.prn (regByte 1)) : Except FaultCause Instr) = .ok (.prn (regByte r)) := h
    have hr : r = 1 := regByte_injective (by injection h' with h'; injection h' with h'; exact h'.symm)
    subst hr
    exact absurd hw (by decide)
  · exact ⟨fun h => absurd h.choose_spec.1 (by decide), _, rfl⟩

end Sys2Proof.Tests
end

section
/-! Proofs of the statements on the decoder's fields and on opcode bytes without a handler (spec/30_encoding.md R71, R72, R77, R78; spec/40_engine.md R93; spec/60_exceptions.md R152, R153). -/

namespace Sys2Proof

/-! ### Bytes without a handler -/

theorem lookup_eq_none_of_not_mem_keys {β : Type} {k : Byte} {l : List (Byte × β)} (h : k ∉ l.map (·.1)) :
    l.lookup k = none :=
  lookup_eq_none_of_forall_ne fun p hp hk => h (List.mem_map.2 ⟨p, hp, hk⟩)

/-- R152: bit 5 clear, and no key of the general table. -/
theorem decodeWith_not_mem_generalTable {m : OpcodeMap} {ir : Byte} (h5 : ir.getLsbD 5 = false)
    (hk : ir ∉ (generalTable m).map (·.1)) (a b : Byte) : decodeWith m ir a b = .error .unsupportedOperation := by
  have halu : (decodeOpcode ir).isAlu = false := h5
  rw [decodeWith, dispatch, halu, show (decodeOpcode ir).key = ir from rfl, lookup_eq_none_of_not_mem_keys hk]
  rfl

/-- R153: bit 5 set, and no key of the ALU table. -/
theorem decodeWith_not_mem_aluTable {m : OpcodeMap} {ir : Byte} (h5 : ir.getLsbD 5 = true)
    (hk : ir ∉ (aluTable m).map (·.1)) (a b : Byte) : decodeWith m ir a b = .error .unsupportedAluOperation := by
  have halu : (decodeOpcode ir).isAlu = true := h5
  rw [decodeWith, dispatch, halu, show (decodeOpcode ir).key = ir from rfl, lookup_eq_none_of_not_mem_keys hk]
  rfl

/-! ### The sixteen rows -/

/-- The sixteen opcode bytes are the keys of the two handler tables. -/
theorem opcodeRows_bytes (m : OpcodeMap) :
    (opcodeRows m).map (·.byte) = (generalTable m).map (·.1) ++ (aluTable m).map (·.1) := rfl

theorem not_mem_tables_of_no_row {m : OpcodeMap} {ir : Byte} (h : ∀ row ∈ opcodeRows m, row.byte ≠ ir) :
    ir ∉ (generalTable m).map (·.1) ∧ ir ∉ (aluTable m).map (·.1) := by
  have hrows : ir ∉ (opcodeRows m).map (·.byte) := fun hm =>
    let ⟨row, hrow, hb⟩ := List.mem_map.1 hm
    h row hrow hb
  rwa [opcodeRows_bytes, List.mem_append, not_or] at hrows

/-- No instruction has three operand bytes (R70). -/
theorem opcodeRow_count_ne_three {m : OpcodeMap} {row : OpcodeRow} (h : row ∈ opcodeRows m) : row.count ≠ 3 := by
  have hcounts : row.count ∈ (opcodeRows m).map (·.count) := List.mem_map_of_mem h
  have hno : ∀ c ∈ (opcodeRows m).map (·.count), c ≠ 3 := by simp [opcodeRows]
  exact hno _ hcounts

/-- Settles O5: the opcode bytes are the keys of the two tables, so a byte of no row misses the one its bit 5
chooses; a legal table gives each byte its row's count, which is never 3. -/
theorem illegalBytesAreRejected : Obligations.IllegalBytesAreRejected := by
  intro m hlegal ir a b
  refine ⟨fun hno => ?_, fun h3 row hrow hbyte => ?_⟩
  · obtain ⟨hgen, halu⟩ := not_mem_tables_of_no_row hno
    cases h5 : ir.getLsbD 5
    · exact decodeWith_not_mem_generalTable h5 hgen a b
    · exact decodeWith_not_mem_aluTable h5 halu a b
  · obtain ⟨hcount, -, -⟩ := hlegal.2 row hrow
    rw [hbyte, h3] at hcount
    exact opcodeRow_count_ne_three hrow hcount.symm

/-! ### The decoder's fields -/

/-- Bit `k` of a byte by its weight (R8). -/
theorem getLsbD_iff_div_mod (b : Byte) (k : Nat) : b.getLsbD k = true ↔ b.toNat / 2 ^ k % 2 = 1 := by
  rw [BitVec.getLsbD, Nat.testBit_eq_decide_div_mod_eq, decide_eq_true_iff]

theorem decodeOpcode_count_toNat (ir : Byte) : (decodeOpcode ir).count.toNat = ir.toNat / 64 := by
  have := ir.isLt
  simp only [decodeOpcode, BitVec.extractLsb'_toNat, Nat.shiftRight_eq_div_pow]
  omega

theorem decodeOpcode_id_toNat (ir : Byte) : (decodeOpcode ir).id.toNat = ir.toNat % 16 := by
  simp [decodeOpcode, BitVec.extractLsb'_toNat]

/-- Settles O1, field by field. -/
theorem decoderYieldsTheFields : Obligations.DecoderYieldsTheFields := fun ir =>
  ⟨decodeOpcode_count_toNat ir, getLsbD_iff_div_mod ir 5, getLsbD_iff_div_mod ir 4, decodeOpcode_id_toNat ir, rfl⟩

end Sys2Proof

namespace Sys2Proof.Machine

/-- A step whose fetch succeeds and whose byte is rejected takes the dispatch fault on the latched state (R93, R150). -/
theorem step_of_decode_error {m : OpcodeMap} {s : State} {c : FaultCause} (hf : s.CanFetch)
    (hd : s.instrAt m = .error c) : stepWith m s = .next { latch s with run := .faulted c } := by
  obtain ⟨hr, hp⟩ := hf
  have hd' : decodeWith m (latch s).ir (latch s).operandA (latch s).operandB = .error c := hd
  unfold stepWith fetch
  rw [stopReason_eq_none.2 hr, if_neg (by omega)]
  simp only [hd', takeFault]

/-- Settles O10: the byte misses the table its bit 5 chooses, so dispatch rejects it by that table's cause. -/
theorem unsupportedBytesFault : Obligations.UnsupportedBytesFault := fun _ _ hf =>
  ⟨fun h5 hk => step_of_decode_error hf (decodeWith_not_mem_generalTable h5 hk _ _),
   fun h5 hk => step_of_decode_error hf (decodeWith_not_mem_aluTable h5 hk _ _)⟩

end Sys2Proof.Machine
end

section
/-! Frames: what each state update leaves alone, the footprint of every instruction, and the statements about what an
instruction changes (spec/10_state.md R21, R27; spec/20_memory.md R51; spec/40_engine.md R95). -/

namespace Sys2Proof.Machine

/-! ### Frames of the state updates -/

theorem frame_halt (s : State) : Frame { run := true } s (halt s) := by simp [Frame]

theorem frame_emit (v : Byte) (s : State) : Frame { output := true } s (emit v s) := by simp [Frame]

theorem frame_writeFl (v : Byte) (s : State) : Frame { fl := true } s (writeFl v s) := by simp [Frame]

theorem frame_jumpTo (v : Byte) (s : State) : Frame { pc := true } s (jumpTo v s) := by simp [Frame]

theorem frame_skipJump (s : State) : Frame { pc := true } s (skipJump s) := by simp [Frame]

theorem frame_writeReg (r : RegIndex) (v : Byte) (s : State) : Frame { regs := [r] } s (writeReg r v s) := by
  simp +contextual [Frame, reg_writeReg, isWritten_writeReg]

theorem frame_storeByte (a : Nat) (v : Byte) (s : State) : Frame { mem := [a] } s (storeByte a v s) := by
  simp +contextual [Frame, Memory.read_write_ne]

/-- A fault changes the run state alone (R150), so it keeps every frame that names the run state. -/
theorem frame_takeFault {f : Footprint} (hf : f.run = true) (c : FaultCause) (s : State) :
    Frame f s (takeFault c s) := by
  simp [Frame, hf]

theorem Frame.withRun {f : Footprint} {s t : State} (h : Frame f s t) : Frame { f with run := true } s t := by
  obtain ⟨hreg, hfl, hpc, -, hout, hmem, hlatches⟩ := h
  exact ⟨hreg, hfl, hpc, nofun, hout, hmem, hlatches⟩

theorem Frame.mono_regs {f : Footprint} {s t : State} (h : Frame f s t) {regs : List RegIndex} (hsub : f.regs ⊆ regs) :
    Frame { f with regs := regs } s t := by
  obtain ⟨hreg, hrest⟩ := h
  exact ⟨fun r hr => hreg r fun hf => hr (hsub hf), hrest⟩

/-- What two changes in a row may change. -/
def Footprint.append (f g : Footprint) : Footprint where
  regs := f.regs ++ g.regs
  fl := f.fl || g.fl
  pc := f.pc || g.pc
  run := f.run || g.run
  output := f.output || g.output
  mem := f.mem ++ g.mem

theorem Frame.trans {f g : Footprint} {s t u : State} (h : Frame f s t) (h' : Frame g t u) :
    Frame (f.append g) s u := by
  obtain ⟨hreg, hfl, hpc, hrun, hout, hmem, hir, ha, hb⟩ := h
  obtain ⟨hreg', hfl', hpc', hrun', hout', hmem', hir', ha', hb'⟩ := h'
  simp only [Frame, Footprint.append, List.mem_append, not_or, Bool.or_eq_false_iff]
  exact ⟨fun r hr => ⟨(hreg' r hr.2).1.trans (hreg r hr.1).1, (hreg' r hr.2).2.trans (hreg r hr.1).2⟩,
    fun e => ⟨(hfl' e.2).1.trans (hfl e.1).1, (hfl' e.2).2.trans (hfl e.1).2⟩,
    fun e => (hpc' e.2).trans (hpc e.1), fun e => (hrun' e.2).trans (hrun e.1),
    fun e => (hout' e.2).trans (hout e.1), fun a ha => (hmem' a ha.2).trans (hmem a ha.1),
    hir'.trans hir, ha'.trans ha, hb'.trans hb⟩

/-! ### The footprint of an instruction -/

/-- The register an operand byte names, if it names one (R73). -/
def namedReg (b : Byte) : List RegIndex := (ridx b).toOption.toList

@[simp] theorem namedReg_regByte (r : RegIndex) : namedReg (regByte r) = [r] := by
  simp [namedReg, Except.toOption]

/-- What an instruction that completes from `s` may change. -/
def footprint (s : State) : Instr → Footprint
  | .hlt => { run := true }
  | .ldi b _ => { regs := namedReg b }
  | .prn _ => { output := true }
  | .st a _ => { mem := (namedReg a).map fun r => (s.reg r).toNat }
  | .push _ => { regs := [7], mem := [(s.sp - 1).toNat] }
  | .pop b => { regs := namedReg b ++ [7] }
  | .call _ => { regs := [7], pc := true, mem := [(s.sp - 1).toNat] }
  | .ret => { regs := [7], pc := true }
  | .jmp _ => { pc := true }
  | .jeq _ => { pc := true }
  | .jne _ => { pc := true }
  | .add a _ => { regs := namedReg a }
  | .addi b _ => { regs := namedReg b }
  | .sub a _ => { regs := namedReg a }
  | .mul a _ => { regs := namedReg a }
  | .cmp _ _ => { fl := true }

theorem footprint_pc (s : State) (i : Instr) : (footprint s i).pc = i.isControl := by cases i <;> rfl

theorem footprint_run_of_ne_hlt {i : Instr} (h : i ≠ .hlt) (s : State) : (footprint s i).run = false := by
  cases i with
  | hlt => exact absurd rfl h
  | _ => rfl

theorem footprint_output_of_ne_prn {i : Instr} (h : ∀ b, i ≠ .prn b) (s : State) :
    (footprint s i).output = false := by
  cases i with
  | prn b => exact absurd rfl (h b)
  | _ => rfl

theorem footprint_fl_of_ne_cmp {i : Instr} (h : ∀ a b, i ≠ .cmp a b) (s : State) : (footprint s i).fl = false := by
  cases i with
  | cmp a b => exact absurd rfl (h a b)
  | _ => rfl

theorem effect_frame {i : Instr} {s t : State} (h : Effect i s t) : Frame (footprint s i) s t := by
  cases i with
  | hlt => rw [show t = halt s from h]; exact frame_halt s
  | ldi b imm =>
    obtain ⟨r, rfl, rfl⟩ := h
    simpa [footprint] using frame_writeReg r imm s
  | prn b =>
    obtain ⟨r, -, -, rfl⟩ := h
    exact frame_emit _ s
  | st a b =>
    obtain ⟨ra, rb, rfl, -, -, -, rfl⟩ := h
    simpa [footprint] using frame_storeByte (s.reg ra).toNat (s.reg rb) s
  | push b =>
    obtain ⟨r, -, -, -, -, rfl⟩ := h
    exact (frame_writeReg 7 _ s).trans (frame_storeByte _ _ _)
  | pop b =>
    obtain ⟨r, rfl, -, -, rfl⟩ := h
    have hf := (frame_writeReg 7 (s.reg 7 + 1) s).trans (frame_writeReg r (Memory.read s.mem (s.reg 7).toNat) _)
    rw [footprint, namedReg_regByte]
    exact hf.mono_regs (by simp [Footprint.append])
  | call b =>
    obtain ⟨r, -, -, -, -, rfl⟩ := h
    exact ((frame_writeReg 7 _ s).trans (frame_storeByte _ _ _)).trans (frame_jumpTo _ _)
  | ret =>
    obtain ⟨-, -, rfl⟩ := h
    exact (frame_writeReg 7 _ s).trans (frame_jumpTo _ _)
  | jmp b =>
    obtain ⟨r, -, -, rfl⟩ := h
    exact frame_jumpTo _ s
  | jeq b =>
    obtain ⟨r, -, -, ⟨-, -, rfl⟩ | ⟨-, rfl⟩⟩ := h
    · exact frame_jumpTo _ s
    · exact frame_skipJump s
  | jne b =>
    obtain ⟨r, -, -, ⟨-, -, rfl⟩ | ⟨-, rfl⟩⟩ := h
    · exact frame_jumpTo _ s
    · exact frame_skipJump s
  | add a b =>
    obtain ⟨ra, rb, rfl, -, -, -, rfl⟩ := h
    simpa [footprint] using frame_writeReg ra _ s
  | addi b imm =>
    obtain ⟨r, rfl, -, rfl⟩ := h
    simpa [footprint] using frame_writeReg r _ s
  | sub a b =>
    obtain ⟨ra, rb, rfl, -, -, -, rfl⟩ := h
    simpa [footprint] using frame_writeReg ra _ s
  | mul a b =>
    obtain ⟨ra, rb, rfl, -, -, -, rfl⟩ := h
    simpa [footprint] using frame_writeReg ra _ s
  | cmp a b =>
    obtain ⟨ra, rb, -, -, -, -, rfl⟩ := h
    exact frame_writeFl _ s

/-- Completing or faulting, an instruction changes its footprint and the run state at most. -/
theorem exec_frame {i : Instr} {s t : State} (h : exec i s = .next t) :
    Frame { footprint s i with run := true } s t := by
  rcases exec_cases h with he | ⟨c, -, rfl⟩
  · exact (effect_frame he).withRun
  · exact frame_takeFault rfl c s

theorem exec_pc_of_not_control {i : Instr} {s t : State} (hi : i.isControl = false) (h : exec i s = .next t) :
    t.pc = s.pc := by
  obtain ⟨-, -, hpc, -⟩ := exec_frame h
  exact hpc ((footprint_pc s i).trans hi)

theorem exec_output_of_ne_prn {i : Instr} {s t : State} (hi : ∀ b, i ≠ .prn b) (h : exec i s = .next t) :
    t.output = s.output := by
  obtain ⟨-, -, -, -, hout, -⟩ := exec_frame h
  exact hout (footprint_output_of_ne_prn hi s)

theorem exec_fl_of_ne_cmp {i : Instr} {s t : State} (hi : ∀ a b, i ≠ .cmp a b) (h : exec i s = .next t) :
    t.fl = s.fl ∧ t.flWritten = s.flWritten := by
  obtain ⟨-, hfl, -⟩ := exec_frame h
  exact hfl (footprint_fl_of_ne_cmp hi s)

theorem effect_run_of_ne_hlt {i : Instr} {s t : State} (hi : i ≠ .hlt) (h : Effect i s t) : t.run = s.run := by
  obtain ⟨-, -, -, hrun, -⟩ := effect_frame h
  exact hrun (footprint_run_of_ne_hlt hi s)

/-! ### The frames the statements name -/

/-- Settles O39: each frame is the instruction's footprint with the run state. -/
theorem frameOfRegisterInstructions : Obligations.FrameOfRegisterInstructions := by
  intro a b imm s t
  refine ⟨?_, exec_frame, exec_frame, exec_frame, ?_⟩
  · rintro (h | h | h | h | h) <;> simpa [footprint] using exec_frame h
  · rintro (h | h | h) <;> exact exec_frame h

/-- Settles O40: each frame is the instruction's footprint with the run state. -/
theorem frameOfStoringInstructions : Obligations.FrameOfStoringInstructions := fun _ _ _ _ =>
  ⟨fun h => by simpa [footprint] using exec_frame h, exec_frame, exec_frame⟩

/-- Settles O41: each frame is the instruction's footprint with the run state. -/
theorem frameOfPoppingInstructions : Obligations.FrameOfPoppingInstructions := fun _ _ _ =>
  ⟨fun h => by simpa [footprint] using exec_frame h, exec_frame⟩

/-! ### CMP (R145) -/

theorem compareFlags_of_eq {va vb : Byte} (h : va.toNat = vb.toNat) : compareFlags va vb = 0x01 :=
  if_pos (BitVec.eq_of_toNat_eq h)

theorem compareFlags_of_gt {va vb : Byte} (h : va.toNat > vb.toNat) : compareFlags va vb = 0x02 := by
  have hne : va ≠ vb := by rintro rfl; omega
  rw [compareFlags, if_neg hne, if_pos h]

theorem compareFlags_of_lt {va vb : Byte} (h : va.toNat < vb.toNat) : compareFlags va vb = 0x04 := by
  have hne : va ≠ vb := by rintro rfl; omega
  rw [compareFlags, if_neg hne, if_neg (by omega)]

/-- Settles O38, by CMP's effect and the three cases of `compareFlags`. -/
theorem cmpSetsExactlyOneFlag : Obligations.CmpSetsExactlyOneFlag := fun a b s ha hb =>
  ⟨writeFl (compareFlags (s.reg a) (s.reg b)) s, exec_of_effect ⟨a, b, rfl, rfl, ha, hb, rfl⟩, rfl,
    compareFlags_of_eq, compareFlags_of_gt, compareFlags_of_lt, frame_writeFl _ s⟩

/-! ### HLT alone halts, PRN alone emits -/

theorem exec_halted_iff {i : Instr} {s t : State} (hs : s.run = .running) (h : exec i s = .next t) :
    t.run = .halted ↔ i = .hlt := by
  rcases exec_cases h with he | ⟨c, -, rfl⟩
  · by_cases hi : i = .hlt
    · subst hi
      simp [show t = halt s from he]
    · simp [effect_run_of_ne_hlt hi he, hs, hi]
  · have hi : i ≠ .hlt := by
      rintro rfl
      have hrun := congrArg State.run (finish_ok_eq_next (s := s) h)
      simp at hrun
    simp [hi]

/-- Settles O13: the two faults before the handler do not halt, and of the handlers only HLT's does. -/
theorem haltedExactlyByHlt : Obligations.HaltedExactlyByHlt := by
  intro m s t h
  obtain ⟨hr, ⟨hp, rfl⟩ | ⟨hp, c, hd, rfl⟩ | ⟨hp, i, u, hd, hu, rfl⟩⟩ := step_cases h
  · simp only [takeFault_run, reduceCtorEq, false_iff, not_and]
    omega
  · have hi : s.instrAt m = .error c := hd
    simp [hi]
  · have hi : s.instrAt m = .ok i := hd
    simp [hi, hp, exec_halted_iff (s := latch s) hr hu]

/-- Settles O23: by the footprints only PRN changes the output, and by its effect it appends its register's value. -/
theorem outputComesOnlyFromPrn : Obligations.OutputComesOnlyFromPrn := by
  intro m s t h
  obtain ⟨-, ⟨-, rfl⟩ | ⟨-, c, -, rfl⟩ | ⟨-, i, u, hd, hu, rfl⟩⟩ := step_cases h
  · exact .inl rfl
  · exact .inl rfl
  · rw [advancePc_output]
    by_cases hi : ∃ b, i = .prn b
    · obtain ⟨b, rfl⟩ := hi
      rcases exec_cases hu with ⟨r, rfl, -, rfl⟩ | ⟨c, -, rfl⟩
      · exact .inr ⟨r, hd, rfl⟩
      · exact .inl rfl
    · exact .inl (exec_output_of_ne_prn (s := latch s) (not_exists.1 hi) hu)

end Sys2Proof.Machine
end

section
/-! Faults of a read: an unwritten register, an unwritten FL (spec/10_state.md R22, R28; spec/60_exceptions.md R158,
R160). -/

namespace Sys2Proof.Machine

theorem finish_bind_error {α : Type} {x : Except FaultCause α} {c : FaultCause} (hx : x = .error c)
    (f : α → Except FaultCause State) (s : State) : finish s (x >>= f) = .next (takeFault c s) := by
  rw [hx, error_bind, finish_error]

theorem readOne_unwritten {r : RegIndex} {s : State} (h : s.isWritten r = false) :
    readOne (regByte r) s = .error .unwrittenRegister :=
  readOne_eq_error.2 (.inr ⟨r, rfl, h, rfl⟩)

theorem readPair_unwritten {a b : RegIndex} {s : State} (h : s.isWritten a = false ∨ s.isWritten b = false) :
    readPair (regByte a) (regByte b) s = .error .unwrittenRegister := by
  cases ha : s.isWritten a
  · simp [readPair, readReg_unwritten ha]
  · have hb : s.isWritten b = false := h.resolve_left (by simp [ha])
    simp [readPair, readReg_written ha, readReg_unwritten hb]

theorem conditionalJump_unwrittenRegister {k : Bool} {r : RegIndex} {s : State} (hf : s.flWritten = true)
    (hk : flagE s.fl = k) (hr : s.isWritten r = false) :
    conditionalJump k (regByte r) s = .error .unwrittenRegister := by
  simp [conditionalJump, readFl_written hf, hk, readReg_unwritten hr]

theorem conditionalJump_unwrittenFlags (k : Bool) (r : RegIndex) {s : State} (hf : s.flWritten = false) :
    conditionalJump k (regByte r) s = .error .unwrittenFlags := by
  simp [conditionalJump, readFl_eq_error.2 ⟨hf, rfl⟩]

/-- Settles O43: the handlers named read their registers first, and so fault before anything else. -/
theorem unwrittenRegisterReadFaults : Obligations.UnwrittenRegisterReadFaults := by
  intro a b imm s
  refine ⟨fun ha i hi => ?_, fun hab i hi => ?_, fun ha hf hk => ?_, fun ha hf hk => ?_⟩
  · have hread := readOne_unwritten ha
    simp only [List.mem_cons, List.not_mem_nil, or_false] at hi
    rcases hi with rfl | rfl | rfl | rfl | rfl <;> exact finish_bind_error hread _ s
  · have hread := readPair_unwritten hab
    simp only [List.mem_cons, List.not_mem_nil, or_false] at hi
    rcases hi with rfl | rfl | rfl | rfl | rfl <;> exact finish_bind_error hread _ s
  · exact congrArg (finish s) (conditionalJump_unwrittenRegister hf hk ha)
  · exact congrArg (finish s) (conditionalJump_unwrittenRegister hf hk ha)

/-- Settles O44: both jumps read FL before their register. -/
theorem unwrittenFlagsReadFaults : Obligations.UnwrittenFlagsReadFaults := fun r s hf =>
  ⟨congrArg (finish s) (conditionalJump_unwrittenFlags true r hf),
   congrArg (finish s) (conditionalJump_unwrittenFlags false r hf)⟩

end Sys2Proof.Machine
end

section
/-! What every run keeps: the invariant (spec/10_state.md R22, R24, R26; spec/20_memory.md R50), at reset and after
every step. -/

namespace Sys2Proof.Machine

/-! ### Predicates kept by every state update -/

/-- `P` is kept by every update a handler or the engine makes. An update that touches nothing `P` speaks of needs no
proof. -/
structure Kept (P : State → Prop) : Prop where
  setPc : ∀ s pc, P s → P { s with pc := pc } := by exact fun _ _ h => h
  setRun : ∀ s run, P s → P { s with run := run } := by exact fun _ _ h => h
  setOutput : ∀ s out, P s → P { s with output := out } := by exact fun _ _ h => h
  setLatches : ∀ s ir a b, P s → P { s with ir := ir, operandA := a, operandB := b } := by exact fun _ _ _ _ h => h
  writeReg : ∀ s r v, P s → P (writeReg r v s) := by exact fun _ _ _ h => h
  storeByte : ∀ s (a v : Byte), P s → P (storeByte a.toNat v s) := by exact fun _ _ _ h => h
  writeFl : ∀ s va vb, P s → P (writeFl (compareFlags va vb) s) := by exact fun _ _ _ h => h

theorem Kept.of_effect {P : State → Prop} (hP : Kept P) {i : Instr} {s t : State} (h : Effect i s t) (hs : P s) :
    P t := by
  cases i with
  | hlt => rw [show t = halt s from h]; exact hP.setRun _ _ hs
  | ldi b imm => obtain ⟨r, -, rfl⟩ := h; exact hP.writeReg _ _ _ hs
  | prn b => obtain ⟨r, -, -, rfl⟩ := h; exact hP.setOutput _ _ hs
  | st a b => obtain ⟨ra, rb, -, -, -, -, rfl⟩ := h; exact hP.storeByte _ _ _ hs
  | push b => obtain ⟨r, -, -, -, -, rfl⟩ := h; exact hP.storeByte _ _ _ (hP.writeReg _ _ _ hs)
  | pop b => obtain ⟨r, -, -, -, rfl⟩ := h; exact hP.writeReg _ _ _ (hP.writeReg _ _ _ hs)
  | call b =>
    obtain ⟨r, -, -, -, -, rfl⟩ := h
    exact hP.setPc _ _ (hP.storeByte _ _ _ (hP.writeReg _ _ _ hs))
  | ret => obtain ⟨-, -, rfl⟩ := h; exact hP.setPc _ _ (hP.writeReg _ _ _ hs)
  | jmp b => obtain ⟨r, -, -, rfl⟩ := h; exact hP.setPc _ _ hs
  | jeq b => obtain ⟨r, -, -, ⟨-, -, rfl⟩ | ⟨-, rfl⟩⟩ := h <;> exact hP.setPc _ _ hs
  | jne b => obtain ⟨r, -, -, ⟨-, -, rfl⟩ | ⟨-, rfl⟩⟩ := h <;> exact hP.setPc _ _ hs
  | add a b => obtain ⟨ra, rb, -, -, -, -, rfl⟩ := h; exact hP.writeReg _ _ _ hs
  | addi b imm => obtain ⟨r, -, -, rfl⟩ := h; exact hP.writeReg _ _ _ hs
  | sub a b => obtain ⟨ra, rb, -, -, -, -, rfl⟩ := h; exact hP.writeReg _ _ _ hs
  | mul a b => obtain ⟨ra, rb, -, -, -, -, rfl⟩ := h; exact hP.writeReg _ _ _ hs
  | cmp a b => obtain ⟨ra, rb, -, -, -, -, rfl⟩ := h; exact hP.writeFl _ _ _ hs

theorem Kept.of_exec {P : State → Prop} (hP : Kept P) {i : Instr} {s t : State} (h : exec i s = .next t) (hs : P s) :
    P t := by
  rcases exec_cases h with he | ⟨c, -, rfl⟩
  · exact hP.of_effect he hs
  · exact hP.setRun _ _ hs

theorem Kept.of_step {P : State → Prop} (hP : Kept P) {m : OpcodeMap} {s t : State} (h : stepWith m s = .next t)
    (hs : P s) : P t := by
  have hlatch : P (latch s) := hP.setLatches _ _ _ _ hs
  obtain ⟨-, ⟨-, rfl⟩ | ⟨-, c, -, rfl⟩ | ⟨-, i, u, -, hu, rfl⟩⟩ := step_cases h
  · exact hP.setRun _ _ hs
  · exact hP.setRun _ _ hlatch
  · rw [advancePc_eq]
    exact hP.setPc _ _ (hP.of_exec hu hlatch)

theorem kept_memory_wf : Kept fun s => Memory.wf s.mem where
  storeByte _ a v h := Memory.wf_write h a.isLt v

theorem kept_isWritten (r : RegIndex) : Kept fun s => s.isWritten r = true where
  writeReg s q v h := by rw [isWritten_writeReg, h, ite_self]

theorem kept_flWritten : Kept fun s => s.flWritten = true where
  writeFl _ _ _ _ := rfl

/-- CMP's three values are the only ones FL is ever given (R26). -/
theorem kept_flags : Kept fun s => s.flWritten = true → s.fl = 0x01 ∨ s.fl = 0x02 ∨ s.fl = 0x04 where
  writeFl _ va vb _ _ := compareFlags_cases va vb

/-- Settles O22: a write sets a mark and nothing clears one. -/
theorem writtenStaysWritten : Obligations.WrittenStaysWritten := fun _ _ _ h =>
  ⟨fun r => (kept_isWritten r).of_step h, kept_flWritten.of_step h⟩

/-! ### pc stays in 0..256 -/

theorem opcodeRow_setsPc (m : OpcodeMap) (i : Instr) : (opcodeRow m i).setsPc = i.isControl := by
  cases i <;> rfl

theorem opcodeRow_count_le_two (m : OpcodeMap) (i : Instr) : (opcodeRow m i).count.toNat ≤ 2 := by
  cases i <;> simp [opcodeRow]

/-- A byte that decodes under a legal table sets the pc exactly for the control transfers and counts at most two
operands (R76). -/
theorem decodeOpcode_of_decodeWith {m : OpcodeMap} (hm : m.legal) {ir a b : Byte} {i : Instr}
    (h : decodeWith m ir a b = .ok i) :
    (decodeOpcode ir).setsPc = i.isControl ∧ (decodeOpcode ir).count.toNat ≤ 2 := by
  obtain ⟨hcount, -, hpc⟩ := fields_of_legal hm i
  rw [opcodeByte_of_decodeWith h, hcount, hpc]
  exact ⟨opcodeRow_setsPc m i, opcodeRow_count_le_two m i⟩

/-- Where a handler leaves pc: as it was, past a jump not taken, or at a byte's value (R95, R135). -/
theorem exec_pc_cases {i : Instr} {s t : State} (h : exec i s = .next t) :
    t.pc = s.pc ∨ t.pc = s.pc + 2 ∨ ∃ v : Byte, t.pc = v.setWidth 9 := by
  rcases exec_cases h with he | ⟨c, -, rfl⟩
  · cases i with
    | call b => obtain ⟨r, -, -, -, -, rfl⟩ := he; exact .inr (.inr ⟨_, rfl⟩)
    | ret => obtain ⟨-, -, rfl⟩ := he; exact .inr (.inr ⟨_, rfl⟩)
    | jmp b => obtain ⟨r, -, -, rfl⟩ := he; exact .inr (.inr ⟨_, rfl⟩)
    | jeq b =>
      obtain ⟨r, -, -, ⟨-, -, rfl⟩ | ⟨-, rfl⟩⟩ := he
      · exact .inr (.inr ⟨_, rfl⟩)
      · exact .inr (.inl rfl)
    | jne b =>
      obtain ⟨r, -, -, ⟨-, -, rfl⟩ | ⟨-, rfl⟩⟩ := he
      · exact .inr (.inr ⟨_, rfl⟩)
      · exact .inr (.inl rfl)
    | _ => exact .inl (exec_pc_of_not_control rfl h)
  · exact .inl rfl

theorem exec_pc_le {i : Instr} {s t : State} (hs : s.pc.toNat + 2 ≤ 255) (h : exec i s = .next t) :
    t.pc.toNat ≤ 255 := by
  rcases exec_pc_cases h with e | e | ⟨v, e⟩ <;> rw [e]
  · omega
  · rw [BitVec.toNat_add, show (2 : Pc).toNat = 2 from rfl]
    omega
  · rw [toNat_setWidth_pc]
    exact Nat.le_of_lt_succ v.isLt

/-- The engine's advance adds at most three (R94). -/
theorem advancePc_pc_le {d : Decoded} {t : State} (ht : t.pc.toNat + 2 ≤ 255) (hd : d.count.toNat ≤ 2) :
    (advancePc d t).pc.toNat ≤ 256 := by
  unfold advancePc
  split
  · simp only [BitVec.toNat_add, BitVec.toNat_setWidth, show (1 : Pc).toNat = 1 from rfl]
    omega
  · omega

theorem advancePc_of_setsPc {d : Decoded} (hd : d.setsPc = true) (t : State) : advancePc d t = t := by
  simp [advancePc, hd]

theorem step_pc_le {m : OpcodeMap} (hm : m.legal) {s t : State} (hs : s.pc.toNat ≤ 256)
    (h : stepWith m s = .next t) : t.pc.toNat ≤ 256 := by
  obtain ⟨-, ⟨-, rfl⟩ | ⟨-, c, -, rfl⟩ | ⟨hp, i, u, hd, hu, rfl⟩⟩ := step_cases h
  · exact hs
  · exact hs
  · obtain ⟨hpc, hcount⟩ := decodeOpcode_of_decodeWith hm hd
    cases hi : i.isControl
    · have hu' : u.pc = s.pc := exec_pc_of_not_control (s := latch s) hi hu
      exact advancePc_pc_le (hu' ▸ hp) hcount
    · rw [advancePc_of_setsPc (hpc.trans hi)]
      exact (exec_pc_le (s := latch s) hp hu).trans (by omega)

/-! ### The invariant -/

theorem step_keeps_inv {m : OpcodeMap} (hm : m.legal) {s t : State} (hs : s.Inv) (h : stepWith m s = .next t) :
    t.Inv := by
  obtain ⟨hmem, hpc, h7, hfl⟩ := hs
  exact ⟨kept_memory_wf.of_step h hmem, step_pc_le hm hpc h, (kept_isWritten _).of_step h h7, kept_flags.of_step h hfl⟩

/-- Settles O18: three of the invariant's parts are kept by every update, pc's bound by the fetch's and the count. -/
theorem stepKeepsInvariant : Obligations.StepKeepsInvariant :=
  ⟨fun _ _ hs h => step_keeps_inv opcodeMap_legal hs h, fun _ hm _ _ hs h => step_keeps_inv hm hs h⟩

/-- Settles O19: memory is empty, pc is 0, R7 alone is written. -/
theorem resetSatisfiesInvariant : Obligations.ResetSatisfiesInvariant :=
  ⟨Memory.wf_nil, Nat.zero_le _, rfl, nofun⟩

/-- Settles O20, field by field; the marks by a look at each of the eight. -/
theorem resetLeaves : Obligations.ResetLeaves :=
  ⟨rfl, by decide, rfl, rfl, rfl, fun _ => rfl, rfl⟩

theorem loadImage_inv {image : List Byte} {s : State} (h : loadImage image = some s) : s.Inv := by
  unfold loadImage at h
  split at h
  · rename_i hlen
    obtain rfl := Option.some.inj h
    obtain ⟨hmem, hpc, h7, hfl⟩ := resetSatisfiesInvariant
    exact ⟨Memory.wf_writeBytes hmem (by omega), hpc, h7, hfl⟩
  · cases h

/-- Settles O21, by induction over the run. -/
theorem reachableStatesSatisfyInvariant : Obligations.ReachableStatesSatisfyInvariant := by
  intro m hm s hs
  induction hs with
  | load image s h => exact loadImage_inv h
  | step s t _ h ih => exact step_keeps_inv hm ih h

end Sys2Proof.Machine
end

section
/-! Two runs side by side: what no program can see (spec/10_state.md R22, R27, R28, R31, R33). -/

namespace Sys2Proof.Machine

/-! ### Relations every handler keeps -/

/-- Two results of a handler: the same fault, or related states. -/
inductive Related (R : State → State → Prop) : Except FaultCause State → Except FaultCause State → Prop
  | ok {t t' : State} (h : R t t') : Related R (.ok t) (.ok t')
  | error (c : FaultCause) : Related R (.error c) (.error c)

/-- Related states give every read but FL's the same answer, and the same update keeps them related. -/
structure Simulation (R : State → State → Prop) : Prop where
  readReg_eq : ∀ {s s'}, R s s' → ∀ r, readReg r s' = readReg r s
  pc_eq : ∀ {s s'}, R s s' → s'.pc = s.pc
  mem_eq : ∀ {s s'}, R s s' → s'.mem = s.mem
  setPc : ∀ {s s'} pc, R s s' → R { s with pc := pc } { s' with pc := pc }
  setRun : ∀ {s s'} run, R s s' → R { s with run := run } { s' with run := run }
  emit : ∀ {s s'} v, R s s' → R (emit v s) (emit v s')
  writeReg : ∀ {s s'} r v, R s s' → R (writeReg r v s) (writeReg r v s')
  storeByte : ∀ {s s'} a v, R s s' → R (storeByte a v s) (storeByte a v s')
  writeFl : ∀ {s s'} v, R s s' → R (writeFl v s) (writeFl v s')

/-- E as JEQ and JNE read it: nothing else of FL, and a fault while FL is unwritten (R27, R28). -/
def readE (s : State) : Except FaultCause Bool := (readFl s).map flagE

theorem conditionalJump_eq (k : Bool) (b : Byte) (s : State) : conditionalJump k b s =
    (ridx b >>= fun i => readE s >>= fun e =>
      if e = k then readReg i s >>= fun v => .ok (jumpTo v s) else .ok (skipJump s)) := by
  unfold conditionalJump readE
  cases readFl s <;> rfl

theorem popByte_bind_eq (s : State) (f : Byte × State → Except FaultCause State) : (popByte s >>= f) =
    (readReg Config.spIndex s >>= fun sp => if sp = 255 then .error .stackUnderflow else
      f (Memory.read s.mem sp.toNat, writeReg Config.spIndex (sp + 1) s)) := by
  simp only [popByte, readSp_eq, writeSp_eq, memRead_byte, ok_bind]
  cases readReg Config.spIndex s with
  | error c => rfl
  | ok sp =>
    simp only [ok_bind]
    split <;> rfl

section
variable {R : State → State → Prop} {s s' : State}

theorem Related.bind_same {α : Type} {x x' : Except FaultCause α} {f f' : α → Except FaultCause State} (hx : x' = x)
    (h : ∀ a, Related R (f a) (f' a)) : Related R (x >>= f) (x' >>= f') := by
  subst hx
  cases x' with
  | ok a => exact h a
  | error c => exact .error c

theorem Related.bind {x x' : Except FaultCause State} {f f' : State → Except FaultCause State} (hx : Related R x x')
    (h : ∀ {t t'}, R t t' → Related R (f t) (f' t')) : Related R (x >>= f) (x' >>= f') := by
  cases hx with
  | ok ht => exact h ht
  | error c => exact .error c

theorem Related.ite {p : Prop} [Decidable p] {x x' y y' : Except FaultCause State} (hx : Related R x x')
    (hy : Related R y y') : Related R (if p then x else y) (if p then x' else y') := by
  split
  · exact hx
  · exact hy

variable (hR : Simulation R) (h : R s s')
include hR h

theorem Simulation.finish_next {x x' : Except FaultCause State} (hx : Related R x x') {t : State}
    (ht : finish s x = .next t) : ∃ t', finish s' x' = .next t' ∧ R t t' := by
  cases hx with
  | ok hu => exact ⟨_, rfl, finish_ok_eq_next ht ▸ hu⟩
  | error c => exact ⟨_, rfl, (Host.Outcome.next.inj ht) ▸ hR.setRun _ h⟩

theorem Simulation.readOne_eq (b : Byte) : readOne b s' = readOne b s := by
  simp only [readOne, hR.readReg_eq h]

theorem Simulation.readPair_eq (a b : Byte) : readPair a b s' = readPair a b s := by
  simp only [readPair, hR.readReg_eq h]

theorem Simulation.pushByte_related (v : Byte) : Related R (pushByte v s) (pushByte v s') := by
  refine .bind_same (hR.readReg_eq h _) fun sp => .ite (.error _) ?_
  simp only [memWrite_byte]
  exact .ok (hR.storeByte _ _ (hR.writeReg _ _ h))

theorem Simulation.popByte_bind_related {f f' : Byte × State → Except FaultCause State}
    (hf : ∀ v {t t'}, R t t' → Related R (f (v, t)) (f' (v, t'))) :
    Related R (popByte s >>= f) (popByte s' >>= f') := by
  rw [popByte_bind_eq, popByte_bind_eq]
  refine .bind_same (hR.readReg_eq h _) fun sp => .ite (.error _) ?_
  rw [hR.mem_eq h]
  exact hf _ (hR.writeReg _ _ h)

theorem Simulation.aluPair_related (g : Byte → Byte → Byte) (a b : Byte) :
    Related R (aluPair g a b s) (aluPair g a b s') :=
  .bind_same (hR.readPair_eq h a b) fun _ => .ok (hR.writeReg _ _ h)

theorem Simulation.conditionalJump_related (hE : readE s' = readE s) (k : Bool) (b : Byte) :
    Related R (conditionalJump k b s) (conditionalJump k b s') := by
  rw [conditionalJump_eq, conditionalJump_eq]
  refine .bind_same rfl fun i => .bind_same hE fun e => .ite ?_ ?_
  · exact .bind_same (hR.readReg_eq h i) fun v => .ok (hR.setPc _ h)
  · rw [skipJump, skipJump, hR.pc_eq h]
    exact .ok (hR.setPc _ h)

/-- An instruction run from two related states leaves related states; JEQ and JNE must also read the same E. -/
theorem Simulation.exec_next {i : Instr} (hE : ∀ b, i = .jeq b ∨ i = .jne b → readE s' = readE s) {t : State}
    (ht : exec i s = .next t) : ∃ t', exec i s' = .next t' ∧ R t t' := by
  cases i with
  | hlt => exact hR.finish_next h (.ok (hR.setRun _ h)) ht
  | ldi b imm => exact hR.finish_next h (.bind_same rfl fun r => .ok (hR.writeReg _ _ h)) ht
  | prn b => exact hR.finish_next h (.bind_same (hR.readOne_eq h b) fun p => .ok (hR.emit _ h)) ht
  | st a b =>
    refine hR.finish_next h (.bind_same (hR.readPair_eq h a b) fun p => ?_) ht
    simp only [memWrite_byte]
    exact .ok (hR.storeByte _ _ h)
  | push b => exact hR.finish_next h (.bind_same (hR.readOne_eq h b) fun p => hR.pushByte_related h _) ht
  | pop b =>
    exact hR.finish_next h (.bind_same rfl fun r => hR.popByte_bind_related h fun v _ _ hu => .ok (hR.writeReg _ _ hu)) ht
  | call b =>
    refine hR.finish_next h (.bind_same (hR.readOne_eq h b) fun p => ?_) ht
    rw [returnAddress, returnAddress, hR.pc_eq h]
    exact (hR.pushByte_related h _).bind fun hu => .ok (hR.setPc _ hu)
  | ret => exact hR.finish_next h (hR.popByte_bind_related h fun v _ _ hu => .ok (hR.setPc _ hu)) ht
  | jmp b => exact hR.finish_next h (.bind_same (hR.readOne_eq h b) fun p => .ok (hR.setPc _ h)) ht
  | jeq b => exact hR.finish_next h (hR.conditionalJump_related h (hE b (.inl rfl)) _ b) ht
  | jne b => exact hR.finish_next h (hR.conditionalJump_related h (hE b (.inr rfl)) _ b) ht
  | add a b => exact hR.finish_next h (hR.aluPair_related h _ a b) ht
  | addi b imm => exact hR.finish_next h (.bind_same (hR.readOne_eq h b) fun p => .ok (hR.writeReg _ _ h)) ht
  | sub a b => exact hR.finish_next h (hR.aluPair_related h _ a b) ht
  | mul a b => exact hR.finish_next h (hR.aluPair_related h _ a b) ht
  | cmp a b => exact hR.finish_next h (.bind_same (hR.readPair_eq h a b) fun p => .ok (hR.writeFl _ h)) ht

end

/-! ### Values behind clear marks and the latches -/

theorem Alike.isWritten_eq {s s' : State} (h : Alike s s') (r : RegIndex) : s'.isWritten r = s.isWritten r := by
  rw [State.isWritten, State.isWritten, h.1]

theorem Alike.readReg_eq {s s' : State} (h : Alike s s') (r : RegIndex) : readReg r s' = readReg r s := by
  have hw := h.isWritten_eq r
  obtain ⟨-, hreg, -⟩ := h
  cases hr : s.isWritten r
  · rw [readReg_unwritten hr, readReg_unwritten (hw.trans hr)]
  · rw [readReg_written hr, readReg_written (hw.trans hr), hreg r hr]

theorem Alike.readFl_eq {s s' : State} (h : Alike s s') : readFl s' = readFl s := by
  obtain ⟨-, -, hfw, hfl, -⟩ := h
  cases hf : s.flWritten
  · rw [readFl_eq_error.2 ⟨hf, rfl⟩, readFl_eq_error.2 ⟨hfw.trans hf, rfl⟩]
  · rw [readFl_written hf, readFl_written (hfw.trans hf), hfl hf]

theorem alike_writeReg {s s' : State} (r : RegIndex) (v : Byte) (h : Alike s s') :
    Alike (writeReg r v s) (writeReg r v s') := by
  obtain ⟨hx, hreg, hrest⟩ := h
  refine ⟨congrArg (·.set r.val true) hx, fun q hq => ?_, hrest⟩
  by_cases hqr : q = r
  · rw [hqr, reg_writeReg_same, reg_writeReg_same]
  · rw [reg_writeReg_ne _ hqr, reg_writeReg_ne _ hqr]
    exact hreg q (isWritten_writeReg_ne s hqr v ▸ hq)

theorem alike_simulation : Simulation Alike where
  readReg_eq h := h.readReg_eq
  pc_eq := fun ⟨_, _, _, _, hpc, _⟩ => hpc
  mem_eq := fun ⟨_, _, _, _, _, hmem, _⟩ => hmem
  setPc _ := fun ⟨hx, hreg, hfw, hfl, _, hrest⟩ => ⟨hx, hreg, hfw, hfl, rfl, hrest⟩
  setRun _ := fun ⟨hx, hreg, hfw, hfl, hpc, hmem, _, hout⟩ => ⟨hx, hreg, hfw, hfl, hpc, hmem, rfl, hout⟩
  emit _ := fun ⟨hx, hreg, hfw, hfl, hpc, hmem, hrun, hout⟩ =>
    ⟨hx, hreg, hfw, hfl, hpc, hmem, hrun, congrArg (· ++ _) hout⟩
  writeReg _ _ h := alike_writeReg _ _ h
  storeByte _ _ := fun ⟨hx, hreg, hfw, hfl, hpc, hmem, hrest⟩ =>
    ⟨hx, hreg, hfw, hfl, hpc, congrArg (Memory.write · _ _) hmem, hrest⟩
  writeFl _ := fun ⟨hx, hreg, _, _, hrest⟩ => ⟨hx, hreg, rfl, fun _ => rfl, hrest⟩

/-- The engine's advance depends on what alike states share. -/
theorem alike_advancePc {t t' : State} (d : Decoded) (h : Alike t t') : Alike (advancePc d t) (advancePc d t') := by
  have ⟨_, _, _, _, hpc, _, hrun, _⟩ := h
  by_cases hc : t.run = .running ∧ d.setsPc = false
  · rw [advancePc, advancePc, if_pos hc, if_pos (hrun ▸ hc), hpc]
    exact alike_simulation.setPc _ h
  · rw [advancePc, advancePc, if_neg hc, if_neg (hrun ▸ hc)]
    exact h

/-- The fetch latches the same three bytes in alike states. -/
theorem Alike.latch_eq {s s' : State} (h : Alike s s') : (latch s').ir = (latch s).ir ∧
    (latch s').operandA = (latch s).operandA ∧ (latch s').operandB = (latch s).operandB := by
  obtain ⟨-, -, -, -, hpc, hmem, -⟩ := h
  simp only [latch_ir, latch_operandA, latch_operandB, hpc, hmem, and_self]

theorem Alike.instrAt_eq {s s' : State} (h : Alike s s') (m : OpcodeMap) : s'.instrAt m = s.instrAt m := by
  obtain ⟨-, -, -, -, hpc, hmem, -⟩ := h
  rw [State.instrAt, State.instrAt, hpc, hmem]

theorem step_of_fetch_error {m : OpcodeMap} {s : State} (hr : s.run = .running) (hp : 255 < s.pc.toNat + 2) :
    stepWith m s = .next (takeFault .fetchOutOfRange s) := by
  unfold stepWith fetch
  rw [stopReason_eq_none.2 hr, if_pos hp]

/-- Settles O25: alike states latch and decode the same bytes, and every handler and the advance keep them alike. -/
theorem unwrittenValuesAreUnobservable : Obligations.UnwrittenValuesAreUnobservable := by
  intro m s s' t h ht
  have hlatch : Alike (latch s) (latch s') := h
  have ⟨_, _, _, _, hpc, _, hrun, _⟩ := h
  obtain ⟨hr, ⟨hp, rfl⟩ | ⟨hp, c, hd, rfl⟩ | ⟨hp, i, u, hd, hu, rfl⟩⟩ := step_cases ht
  · exact ⟨_, step_of_fetch_error (hrun.trans hr) (hpc ▸ hp), alike_simulation.setRun _ h⟩
  · exact ⟨_, step_of_decode_error ⟨hrun.trans hr, hpc ▸ hp⟩ ((h.instrAt_eq m).trans hd),
      alike_simulation.setRun _ hlatch⟩
  · have hE : readE (latch s') = readE (latch s) := congrArg (Except.map flagE) hlatch.readFl_eq
    obtain ⟨u', hu', huu'⟩ := alike_simulation.exec_next hlatch (fun _ _ => hE) hu
    refine ⟨_, step_of_decode (hrun.trans hr) (hpc ▸ hp) ((h.instrAt_eq m).trans hd) hu', ?_⟩
    rw [h.latch_eq.1]
    exact alike_advancePc _ huu'

/-! ### FL -/

/-- States that differ in FL and its mark at most. -/
def SameButFl (s s' : State) : Prop := ∃ fl w, s' = { s with fl := fl, flWritten := w }

theorem sameButFl_simulation : Simulation SameButFl where
  readReg_eq := by rintro s _ ⟨fl, w, rfl⟩ r; rfl
  pc_eq := by rintro s _ ⟨fl, w, rfl⟩; rfl
  mem_eq := by rintro s _ ⟨fl, w, rfl⟩; rfl
  setPc _ := by rintro ⟨fl, w, rfl⟩; exact ⟨fl, w, rfl⟩
  setRun _ := by rintro ⟨fl, w, rfl⟩; exact ⟨fl, w, rfl⟩
  emit _ := by rintro ⟨fl, w, rfl⟩; exact ⟨fl, w, rfl⟩
  writeReg _ _ := by rintro ⟨fl, w, rfl⟩; exact ⟨fl, w, rfl⟩
  storeByte _ _ := by rintro ⟨fl, w, rfl⟩; exact ⟨fl, w, rfl⟩
  writeFl v := by rintro ⟨fl, w, rfl⟩; exact ⟨v, true, rfl⟩

/-- E is read from the mark and bit 0 alone (R27). -/
theorem readE_of_same_bit {s : State} {fl : Byte} (h : fl.getLsbD 0 = s.fl.getLsbD 0) :
    readE { s with fl := fl } = readE s := by
  unfold readE readFl
  split
  · exact congrArg Except.ok h
  · rfl

/-- A CMP that completes leaves the same state whatever FL held, with FL written (R27, R145). -/
theorem exec_cmp_ignores_fl {a b fl : Byte} {w : Bool} {s t u : State} (ht : t.run = .running)
    (h : exec (.cmp a b) s = .next t) (hu : exec (.cmp a b) { s with fl := fl, flWritten := w } = .next u) :
    u = t ∧ t.flWritten = true := by
  rcases exec_cases h with ⟨ra, rb, ha, hb, hwa, hwb, rfl⟩ | ⟨c, -, rfl⟩
  · have hu' : exec (.cmp a b) { s with fl := fl, flWritten := w } = .next _ :=
      exec_of_effect ⟨ra, rb, ha, hb, hwa, hwb, rfl⟩
    exact ⟨Host.Outcome.next.inj (hu.symm.trans hu'), rfl⟩
  · cases ht

/-- Settles O24: by the footprints only CMP writes FL; by the simulation of states that differ in FL only JEQ and JNE
read it, and those read E alone. -/
theorem flagsWritersAndReaders : Obligations.FlagsWritersAndReaders := by
  refine ⟨fun i s t h hi => exec_fl_of_ne_cmp hi h, fun _ _ _ _ _ _ _ _ ht h hu => exec_cmp_ignores_fl ht h hu,
    fun i fl w s t hjeq hjne h => ?_, fun i fl s t r hi hbit h => ?_⟩
  · obtain ⟨_, hu, fl', w', rfl⟩ := sameButFl_simulation.exec_next (s' := { s with fl := fl, flWritten := w })
      ⟨fl, w, rfl⟩ (fun b hb => absurd hb (not_or.2 ⟨hjeq b, hjne b⟩)) h
    exact ⟨_, hu, rfl⟩
  · have hcmp : ∀ a b, i ≠ .cmp a b := by rcases hi with rfl | rfl <;> exact nofun
    obtain ⟨_, hu, fl', w', rfl⟩ := sameButFl_simulation.exec_next (s' := { s with fl := fl }) ⟨fl, s.flWritten, rfl⟩
      (fun _ _ => readE_of_same_bit hbit) h
    obtain ⟨hfl, hw⟩ := exec_fl_of_ne_cmp hcmp hu
    obtain ⟨-, hw₀⟩ := exec_fl_of_ne_cmp hcmp h
    rw [hu, show fl' = fl from hfl, show w' = t.flWritten from hw.trans hw₀.symm]

end Sys2Proof.Machine
end

section
/-! Self-modifying code: a step latches memory as it stands, so a store is seen by the next fetch
(spec/20_memory.md R58, R61; spec/40_engine.md R90, R94; spec/70_reset_and_hazards.md R187). -/

namespace Sys2Proof.Machine

/-! ### What a step latches -/

/-- No handler touches the latches (R90). -/
theorem exec_keeps_latched {i : Instr} {s t : State} {byteAt : Nat → Byte} {p : Nat} (h : exec i s = .next t)
    (hs : s.Latched byteAt p) : t.Latched byteAt p := by
  obtain ⟨-, -, -, -, -, -, hir, ha, hb⟩ := exec_frame h
  rwa [State.Latched, hir, ha, hb]

/-- A step whose window is in range latches the three bytes at pc, whatever they decode to and whether or not the step
then faults (R90, log entry 3). -/
theorem step_latches_window (m : OpcodeMap) {s : State} (hf : s.CanFetch) :
    ∃ t, stepWith m s = .next t ∧ t.Latched (Memory.read s.mem) s.pc.toNat := by
  have hlatch : (latch s).Latched (Memory.read s.mem) s.pc.toNat := ⟨rfl, rfl, rfl⟩
  cases hd : s.instrAt m with
  | error c => exact ⟨_, step_of_decode_error hf hd, hlatch⟩
  | ok i =>
    obtain ⟨u, hu⟩ := exec_next i (latch s)
    have hlatched : u.Latched (Memory.read s.mem) s.pc.toNat := exec_keeps_latched hu hlatch
    refine ⟨_, step_of_decode hf.1 hf.2 hd hu, ?_⟩
    rwa [State.Latched, advancePc_ir, advancePc_operandA, advancePc_operandB]

theorem read_write_eq_byteAfterStore {s : State} (hwf : Memory.wf s.mem) (a : Nat) (v : Byte) :
    Memory.read (Memory.write s.mem a v) = s.byteAfterStore a v :=
  funext fun x => Memory.read_write hwf a x v

/-! ### Where a step leaves pc, by its instruction -/

/-- After an instruction that is no control transfer the engine advances past its bytes (R94). -/
theorem advancePc_pc_of_not_control {m : OpcodeMap} (hm : m.legal) {ir a b : Byte} {i : Instr} {t : State}
    (hd : decodeWith m ir a b = .ok i) (hi : i.isControl = false) (hr : t.run = .running)
    (hp : t.pc.toNat + 2 ≤ 255) :
    (advancePc (decodeOpcode ir) t).pc.toNat = t.pc.toNat + (opcodeRow m i).count.toNat + 1 := by
  obtain ⟨hcount, -, -⟩ := fields_of_legal hm i
  rw [← opcodeByte_of_decodeWith hd] at hcount
  obtain ⟨hpc, hle⟩ := decodeOpcode_of_decodeWith hm hd
  rw [advancePc, if_pos ⟨hr, hpc.trans hi⟩, ← hcount]
  simp only [BitVec.toNat_add, BitVec.toNat_setWidth, show (1 : Pc).toNat = 1 from rfl]
  omega

/-- After a control transfer the engine leaves pc to the handler (R95). -/
theorem advancePc_of_control {m : OpcodeMap} (hm : m.legal) {ir a b : Byte} {i : Instr}
    (hd : decodeWith m ir a b = .ok i) (hi : i.isControl = true) (t : State) : advancePc (decodeOpcode ir) t = t :=
  advancePc_of_setsPc ((decodeOpcode_of_decodeWith hm hd).1.trans hi) t

/-! ### The store and the next fetch -/

/-- An instruction that can complete and whose effect on memory is one store does complete, and at the pc it leaves the
next step latches memory as it is after that store (R58, R61). -/
theorem next_fetch_sees_store {m : OpcodeMap} {i : Instr} {s t : State} {a p : Nat} {v : Byte}
    (hwf : Memory.wf s.mem) (hf : s.CanFetch) (hd : s.instrAt m = .ok i) (he : Effect i (latch s) t)
    (hr : t.run = .running) (hmem : t.mem = Memory.write s.mem a v)
    (hpc : (advancePc (decodeOpcode (latch s).ir) t).pc.toNat = p) (hp : p + 2 ≤ 255) :
    ∃ t u, stepWith m s = .next t ∧ t.pc.toNat = p ∧ stepWith m t = .next u ∧
      u.Latched (s.byteAfterStore a v) p := by
  obtain ⟨u, hu, hlatched⟩ := step_latches_window m (s := advancePc (decodeOpcode (latch s).ir) t)
    ⟨(advancePc_run _ t).trans hr, by omega⟩
  rw [advancePc_mem, hmem, read_write_eq_byteAfterStore hwf, hpc] at hlatched
  exact ⟨_, u, step_of_decode hf.1 hf.2 hd (exec_of_effect he), hpc, hu, hlatched⟩

/-- Settles O50: ST, PUSH and CALL each store one byte of memory; ST and PUSH leave pc to the engine's advance, CALL
sets it. -/
theorem storeIsSeenByTheNextFetch : Obligations.StoreIsSeenByTheNextFetch := by
  intro m hm a b r s hwf hf
  obtain ⟨hrun, hp⟩ := hf
  refine ⟨fun hd ha hb hnext => ?_, fun hd h7 hr h0 hnext => ?_, fun hd h7 hr h0 hnext => ?_⟩
  · exact next_fetch_sees_store hwf ⟨hrun, hp⟩ hd ⟨a, b, rfl, rfl, ha, hb, rfl⟩ hrun rfl
      (advancePc_pc_of_not_control hm hd rfl hrun hp) hnext
  · rw [← toNat_sub_one h0]
    exact next_fetch_sees_store hwf ⟨hrun, hp⟩ hd ⟨r, rfl, hr, h7, h0, rfl⟩ hrun rfl
      (advancePc_pc_of_not_control hm hd rfl hrun hp) hnext
  · rw [← toNat_sub_one h0]
    refine next_fetch_sees_store hwf ⟨hrun, hp⟩ hd ⟨r, rfl, hr, h7, h0, rfl⟩ hrun rfl ?_ hnext
    rw [advancePc_of_control (ir := (latch s).ir) hm hd rfl, jumpTo_pc, toNat_setWidth_pc, latch_reg]

end Sys2Proof.Machine
end

section
/-! Proofs of the statements on encoding: decoding and encoding agree, the engine's advance is the encoded length, and
which bytes are opcodes (spec/30_encoding.md R70-R79; spec/40_engine.md R94). -/

namespace Sys2Proof

/-! ### An instruction is its opcode byte and its operand bytes -/

/-- The bytes after the opcode (R70). -/
def Instr.operandBytes : Instr → List Byte
  | .hlt => []
  | .ldi r imm => [r, imm]
  | .prn r => [r]
  | .st a b => [a, b]
  | .push r => [r]
  | .pop r => [r]
  | .call r => [r]
  | .ret => []
  | .jmp r => [r]
  | .jeq r => [r]
  | .jne r => [r]
  | .add a b => [a, b]
  | .addi r imm => [r, imm]
  | .sub a b => [a, b]
  | .mul a b => [a, b]
  | .cmp a b => [a, b]

/-- The instruction of the same opcode whose operands are the bytes `a` and `b`, as far as it has operands (R93). -/
def Instr.withOperands : Instr → Byte → Byte → Instr
  | .hlt => fun _ _ => .hlt
  | .ldi _ _ => fun a b => .ldi a b
  | .prn _ => fun a _ => .prn a
  | .st _ _ => fun a b => .st a b
  | .push _ => fun a _ => .push a
  | .pop _ => fun a _ => .pop a
  | .call _ => fun a _ => .call a
  | .ret => fun _ _ => .ret
  | .jmp _ => fun a _ => .jmp a
  | .jeq _ => fun a _ => .jeq a
  | .jne _ => fun a _ => .jne a
  | .add _ _ => fun a b => .add a b
  | .addi _ _ => fun a b => .addi a b
  | .sub _ _ => fun a b => .sub a b
  | .mul _ _ => fun a b => .mul a b
  | .cmp _ _ => fun a b => .cmp a b

theorem encodeWith_eq (m : OpcodeMap) (i : Instr) : encodeWith m i = opcodeByte m i :: i.operandBytes := by
  cases i <;> rfl

theorem operandBytes_length (m : OpcodeMap) (i : Instr) :
    i.operandBytes.length = (opcodeRow m i).count.toNat := by
  cases i <;> rfl

theorem encodeWith_length (m : OpcodeMap) (i : Instr) :
    (encodeWith m i).length = (opcodeRow m i).count.toNat + 1 := by
  rw [encodeWith_eq, List.length_cons, operandBytes_length m]

/-- Two bytes are an instruction's operands exactly when its operand bytes are the beginning of them. -/
theorem withOperands_eq_self_iff {i : Instr} {a b : Byte} :
    i.withOperands a b = i ↔ i.operandBytes <+: [a, b] := by
  cases i <;> simp [Instr.withOperands, Instr.operandBytes, eq_comm]

/-! ### Decoding and encoding agree -/

/-- An instruction's opcode byte and handler stand in the table its row's ALU field chooses (R93). -/
theorem withOperands_mem_table (m : OpcodeMap) (i : Instr) :
    (opcodeByte m i, i.withOperands) ∈ if (opcodeRow m i).isAlu then aluTable m else generalTable m := by
  cases i <;> simp [opcodeRow, opcodeByte, Instr.withOperands, aluTable, generalTable]

/-- Under a legal table an instruction's opcode byte decodes to it, with the bytes that follow as its operands. -/
theorem decodeWith_opcodeByte {m : OpcodeMap} (hm : m.legal) (i : Instr) (a b : Byte) :
    decodeWith m (opcodeByte m i) a b = .ok (i.withOperands a b) := by
  obtain ⟨-, halu, -⟩ := fields_of_legal hm i
  have hmem := withOperands_mem_table m i
  cases h : (opcodeRow m i).isAlu <;> rw [h] at halu hmem
  · exact decodeWith_general hm hmem halu a b
  · exact decodeWith_alu hm hmem halu a b

/-- A window decodes to an instruction exactly when it begins with that instruction's bytes (R70, R79). -/
theorem decodeWith_eq_ok_iff {m : OpcodeMap} (hm : m.legal) {ir a b : Byte} {i : Instr} :
    decodeWith m ir a b = .ok i ↔ encodeWith m i <+: [ir, a, b] := by
  rw [encodeWith_eq, List.cons_prefix_cons, ← withOperands_eq_self_iff]
  constructor
  · intro h
    have hir := opcodeByte_of_decodeWith h
    rw [hir, decodeWith_opcodeByte hm, Except.ok.injEq] at h
    exact ⟨hir.symm, h⟩
  · rintro ⟨rfl, hops⟩
    rw [decodeWith_opcodeByte hm, hops]

theorem encodeWith_length_le_three (m : OpcodeMap) (i : Instr) : (encodeWith m i).length ≤ 3 := by
  rw [encodeWith_length]
  exact Nat.succ_le_succ (Machine.opcodeRow_count_le_two m i)

/-- Settles O3: of at least three bytes the first three are the window, and an instruction's bytes fit in it. -/
theorem decodeEncodeAgree : Obligations.DecodeEncodeAgree := by
  intro m hm i rest hlen
  rw [← List.length_append] at hlen
  have hprefix : encodeWith m i <+: encodeWith m i ++ rest := List.prefix_append _ _
  match encodeWith m i ++ rest, hlen, hprefix with
  | ir :: a :: b :: tail, _, hprefix =>
    have hwindow : [ir, a, b] <+: ir :: a :: b :: tail := ⟨tail, rfl⟩
    exact (decodeWith_eq_ok_iff hm).2
      (List.prefix_of_prefix_length_le hprefix hwindow (encodeWith_length_le_three m i))

/-- Settles O4: the same equivalence read the other way, and the row's count is the opcode's under a legal table. -/
theorem encodeDecodeAgree : Obligations.EncodeDecodeAgree := by
  intro m hm ir a b i h
  obtain ⟨hcount, -, -⟩ := fields_of_legal hm i
  refine ⟨(decodeWith_eq_ok_iff hm).1 h, ?_⟩
  rw [encodeWith_length, opcodeByte_of_decodeWith h, hcount, Nat.add_comm]

/-- Settles O2: the spec's words under the machine's table, each by evaluating the decoder on its three bytes. -/
theorem specWordsDecode : Obligations.SpecWordsDecode := ⟨rfl, rfl, rfl, rfl, rfl, rfl, rfl, rfl, rfl⟩

/-! ### The opcodes are sixteen of the 256 bytes -/

/-- One instruction of each row of R74, in its order. -/
def instrOfEachRow : List Instr :=
  [.hlt, .ldi 0 0, .prn 0, .st 0 0, .push 0, .pop 0, .call 0, .ret, .jmp 0, .jeq 0, .jne 0, .add 0 0, .addi 0 0,
   .sub 0 0, .mul 0 0, .cmp 0 0]

theorem opcodeRows_eq_map (m : OpcodeMap) : opcodeRows m = instrOfEachRow.map (opcodeRow m) := rfl

/-- Under a legal table a byte decodes exactly when it stands in a row of R74. -/
theorem decodeWith_ok_iff_mem {m : OpcodeMap} (hm : m.legal) {ir a b : Byte} :
    (∃ i, decodeWith m ir a b = .ok i) ↔ ir ∈ (opcodeRows m).map (·.byte) := by
  constructor
  · rintro ⟨i, h⟩
    rw [opcodeByte_of_decodeWith h, ← opcodeRow_byte]
    exact List.mem_map_of_mem (opcodeRow_mem m i)
  · rw [opcodeRows_eq_map, List.map_map, List.mem_map]
    rintro ⟨i, -, rfl⟩
    exact ⟨_, (congrArg (decodeWith m · a b) (opcodeRow_byte m i)).trans (decodeWith_opcodeByte hm i a b)⟩

/-- Of the numbers below 256, as many name a byte of a list without repetition as the list is long. -/
theorem length_filter_range_ofNat_mem {l : List Byte} (hl : l.Nodup) :
    ((List.range 256).filter fun n => BitVec.ofNat 8 n ∈ l).length = l.length := by
  have hperm : ((List.range 256).filter fun n => BitVec.ofNat 8 n ∈ l).Perm (l.map BitVec.toNat) := by
    refine (List.perm_ext_iff_of_nodup (List.nodup_range.filter _)
      (hl.map fun _ _ => BitVec.eq_of_toNat_eq)).2 fun n => ?_
    simp only [List.mem_filter, List.mem_range, decide_eq_true_eq, List.mem_map]
    constructor
    · rintro ⟨hn, hmem⟩
      exact ⟨_, hmem, Nat.mod_eq_of_lt hn⟩
    · rintro ⟨b, hb, rfl⟩
      exact ⟨b.isLt, by rwa [BitVec.ofNat_toNat, BitVec.setWidth_eq]⟩
  rw [hperm.length_eq, List.length_map]

theorem length_filter_range_of_iff_not_mem {l : List Byte} (hl : l.Nodup) {p : Nat → Bool}
    (hp : ∀ n, p n = true ↔ BitVec.ofNat 8 n ∉ l) : ((List.range 256).filter p).length = 256 - l.length := by
  have hnot : (fun n => !p n) = fun n => decide (BitVec.ofNat 8 n ∈ l) :=
    funext fun n => by rw [Bool.eq_iff_iff, Bool.not_eq_true', ← Bool.not_eq_true, hp, not_not, decide_eq_true_eq]
  have hsplit := List.length_eq_length_filter_add (l := List.range 256) p
  rw [hnot, length_filter_range_ofNat_mem hl, List.length_range] at hsplit
  omega

/-- Settles O6, by what every legal table has: the bytes that decode are those of the sixteen rows, all distinct. -/
theorem twoHundredFortyBytesAreIllegal : Obligations.TwoHundredFortyBytesAreIllegal := by
  intro addi hm
  refine (length_filter_range_of_iff_not_mem hm.1 fun n => ?_).trans (by simp [opcodeRows])
  rw [← decodeWith_ok_iff_mem hm (a := 0) (b := 0)]
  cases decodeWith (ls8Map addi) (BitVec.ofNat 8 n) 0 0 <;> simp

/-! ### The legal values of ADDI_OPCODE -/

/-- The rows of R74 whose bytes are given, all but ADDI's. -/
def fixedRows : List OpcodeRow := (opcodeRows opcodeMap).eraseIdx 12

theorem opcodeRows_ls8Map_perm (b : Byte) :
    (opcodeRows (ls8Map b)).Perm (⟨b, 2, true, false⟩ :: fixedRows) :=
  List.perm_middle (l₁ := (opcodeRows opcodeMap).take 12) (l₂ := (opcodeRows opcodeMap).drop 13)

/-- The given bytes are legal by themselves, so legality is left to ADDI's byte. -/
theorem ls8Map_legal_iff (b : Byte) : (ls8Map b).legal ↔ b ∉ fixedRows.map (·.byte) ∧
    (decodeOpcode b).count = 2 ∧ (decodeOpcode b).isAlu = true ∧ (decodeOpcode b).setsPc = false := by
  have hnodup : (fixedRows.map (·.byte)).Nodup := by decide
  have hfields : ∀ row ∈ fixedRows, (decodeOpcode row.byte).count = row.count ∧
    (decodeOpcode row.byte).isAlu = row.isAlu ∧ (decodeOpcode row.byte).setsPc = row.setsPc := by decide
  have hperm := opcodeRows_ls8Map_perm b
  rw [OpcodeMap.legal, (hperm.map (·.byte)).nodup_iff, List.map_cons, List.nodup_cons]
  simp only [hperm.mem_iff, List.forall_mem_cons, hnodup, and_true]
  exact and_congr_right fun _ => and_iff_left hfields

/-- The bytes with ADDI's fields are 0xA0..0xAF. -/
theorem addi_fields_iff (b : Byte) :
    ((decodeOpcode b).count = 2 ∧ (decodeOpcode b).isAlu = true ∧ (decodeOpcode b).setsPc = false) ↔
    0xA0 ≤ b.toNat ∧ b.toNat ≤ 0xAF := by
  obtain ⟨hcount, halu, hpc, -, -⟩ := decoderYieldsTheFields b
  rw [← BitVec.toNat_inj, hcount, halu, ← Bool.not_eq_true, hpc]
  simp only [BitVec.reduceToNat]
  omega

/-- Settles O7: ADDI's fields leave 0xA0..0xAF, of which the given rows take 0xA0, 0xA1, 0xA2 and 0xA7. -/
theorem legalAddiOpcodes : Obligations.LegalAddiOpcodes := by
  intro b
  have htaken : ∀ k ∈ fixedRows.map (·.byte), k.toNat < 0xA3 ∨ k = 0xA7 := by decide
  rw [ls8Map_legal_iff, addi_fields_iff]
  constructor
  · rintro ⟨hfree, hlow, hhigh⟩
    have hne : ∀ k ∈ fixedRows.map (·.byte), b ≠ k := fun k hk hbk => hfree (hbk ▸ hk)
    have h0 := hne 0xA0 (by decide)
    have h1 := hne 0xA1 (by decide)
    have h2 := hne 0xA2 (by decide)
    have h7 := hne 0xA7 (by decide)
    refine ⟨?_, hhigh, h7⟩
    bv_omega
  · rintro ⟨hlow, hhigh, h7⟩
    refine ⟨fun hmem => ?_, by omega, hhigh⟩
    rcases htaken b hmem with h | h
    · omega
    · exact h7 h

end Sys2Proof

namespace Sys2Proof.Machine

/-- Settles O16: a step that leaves the core Running ran its instruction, whose handler left pc to the engine. -/
theorem sequentialAdvanceIsTheLength : Obligations.SequentialAdvanceIsTheLength := by
  intro m hm s t i hf hd hi h hr
  obtain ⟨hrun, hp⟩ := hf
  obtain ⟨u, hu⟩ := exec_next i (latch s)
  have ht := (step_of_decode hrun hp hd hu).symm.trans h
  rw [Host.Outcome.next.injEq] at ht
  subst ht
  rw [advancePc_run] at hr
  have hpc : u.pc = s.pc := exec_pc_of_not_control (s := latch s) hi hu
  rw [encodeWith_length, advancePc_pc_of_not_control (ir := (latch s).ir) hm hd hi hr (hpc ▸ hp), hpc, Nat.add_assoc]

end Sys2Proof.Machine
end

section
/-! Proofs of the statements on the engine (spec/40_engine.md R90-R97, spec/43_control.md R130-R134): when a step
happens, what it runs, who writes pc, and the first fetch of a loaded image (spec/70_reset_and_hazards.md R181, R183). -/

namespace Sys2Proof.Machine

/-! ### When there is a step -/

theorem step_of_stopReason (m : OpcodeMap) {s : State} {why : Fault} (h : stopReason s.run = some why) :
    stepWith m s = .fault why := by
  unfold stepWith
  rw [h]

theorem step_of_running (m : OpcodeMap) {s : State} (hr : s.run = .running) : ∃ t, stepWith m s = .next t := by
  by_cases hp : s.pc.toNat + 2 ≤ 255
  · obtain ⟨t, ht, -⟩ := step_latches_window m ⟨hr, hp⟩
    exact ⟨t, ht⟩
  · exact ⟨_, step_of_fetch_error hr (by omega)⟩

theorem step_ne_refused (m : OpcodeMap) (s : State) (r : Refusal) : stepWith m s ≠ .refused r := by
  cases hstop : stopReason s.run with
  | some why =>
    rw [step_of_stopReason m hstop]
    nofun
  | none =>
    obtain ⟨t, ht⟩ := step_of_running m (stopReason_eq_none.1 hstop)
    rw [ht]
    nofun

/-- Settles O12: a next state comes from a Running core alone, and a Running core has one, by its fault at the fetch or
by the window it latches. -/
theorem runningCoreAlwaysSteps : Obligations.RunningCoreAlwaysSteps := fun m s =>
  ⟨⟨fun ⟨_, ht⟩ => (step_cases ht).1, step_of_running m⟩, step_ne_refused m s⟩

/-- Settles O11: a step that answers a next state starts from a Running core. -/
theorem terminalStatesTakeNoStep : Obligations.TerminalStatesTakeNoStep := by
  intro m s hstop t ht
  obtain ⟨hr, -⟩ := step_cases ht
  rcases hstop with h | ⟨c, h⟩ <;> rw [hr] at h <;> cases h

/-! ### What a step runs -/

/-- Settles O9: the range check stands before the reads, so the fault is taken on the state the step found. -/
theorem fetchFaultsNearTheTop : Obligations.FetchFaultsNearTheTop := fun _ _ => step_of_fetch_error

/-- Settles O8: the instruction answers a next state, and the step is the engine's advance on it. -/
theorem stepRunsTheDecodedInstruction : Obligations.StepRunsTheDecodedInstruction := by
  refine ⟨fun m s i ⟨hr, hp⟩ hd => ?_, fun _ => rfl⟩
  obtain ⟨t, ht⟩ := exec_next i (latch s)
  exact ⟨t, ht, step_of_decode hr hp hd ht⟩

/-! ### Who writes pc -/

/-- An instruction that leaves the core Running has not faulted, so it has its effect. -/
theorem effect_of_exec_running {i : Instr} {s t : State} (h : exec i s = .next t) (hr : t.run = .running) :
    Effect i s t := by
  rcases exec_cases h with he | ⟨c, -, rfl⟩
  · exact he
  · cases hr

theorem jumpTo_pc_toNat (v : Byte) (s : State) : (jumpTo v s).pc.toNat = v.toNat := toNat_setWidth_pc v

/-- At a pc a fetch admits, `p_pc + 2` does not wrap (R91). -/
theorem skipJump_pc_toNat {s : State} (hp : s.pc.toNat ≤ 253) : (skipJump s).pc.toNat = s.pc.toNat + 2 := by
  rw [skipJump_pc, BitVec.toNat_add, show (2 : Pc).toNat = 2 from rfl]
  omega

theorem effect_call_pc {r : RegIndex} {s t : State} (h : Effect (.call (regByte r)) s t) :
    t.pc.toNat = (s.reg r).toNat := by
  obtain ⟨q, hq, -, -, -, rfl⟩ := h
  rw [jumpTo_pc_toNat, regByte_injective hq]

theorem effect_jmp_pc {r : RegIndex} {s t : State} (h : Effect (.jmp (regByte r)) s t) :
    t.pc.toNat = (s.reg r).toNat := by
  obtain ⟨q, hq, -, rfl⟩ := h
  rw [jumpTo_pc_toNat, regByte_injective hq]

theorem effect_ret_pc {s t : State} (h : Effect .ret s t) : t.pc.toNat = (Memory.read s.mem s.sp.toNat).toNat := by
  obtain ⟨-, -, rfl⟩ := h
  exact jumpTo_pc_toNat _ _

theorem effect_jeq_pc {r : RegIndex} {s t : State} (hp : s.pc.toNat ≤ 253) (h : Effect (.jeq (regByte r)) s t) :
    t.pc.toNat = if flagE s.fl then (s.reg r).toNat else s.pc.toNat + 2 := by
  obtain ⟨q, hq, -, ⟨hE, -, rfl⟩ | ⟨hE, rfl⟩⟩ := h
  · rw [hE, if_pos rfl, jumpTo_pc_toNat, regByte_injective hq]
  · rw [hE, if_neg Bool.false_ne_true, skipJump_pc_toNat hp]

theorem effect_jne_pc {r : RegIndex} {s t : State} (hp : s.pc.toNat ≤ 253) (h : Effect (.jne (regByte r)) s t) :
    t.pc.toNat = if flagE s.fl then s.pc.toNat + 2 else (s.reg r).toNat := by
  obtain ⟨q, hq, -, ⟨hE, -, rfl⟩ | ⟨hE, rfl⟩⟩ := h
  · rw [hE, if_neg Bool.false_ne_true, jumpTo_pc_toNat, regByte_injective hq]
  · rw [hE, if_pos rfl, skipJump_pc_toNat hp]

/-- What the engine's advance leaves in pc (R94). -/
theorem advancePc_pc (d : Decoded) (t : State) : (advancePc d t).pc =
    if t.run = .running ∧ d.setsPc = false then t.pc + d.count.setWidth 9 + 1 else t.pc := by
  unfold advancePc
  split <;> rfl

/-- Settles O17: a sequential handler's footprint leaves pc out, a control transfer that does not fault has its effect,
and the step is the engine's advance on what the handler leaves. -/
theorem controlFlowInvariant : Obligations.ControlFlowInvariant := by
  refine ⟨fun _ _ _ => exec_pc_of_not_control, fun r s t _ hr => ⟨?_, ?_, ?_, ?_⟩, ?_⟩
  · rintro (h | h)
    · exact effect_call_pc (effect_of_exec_running h hr)
    · exact effect_jmp_pc (effect_of_exec_running h hr)
  · exact fun h => effect_ret_pc (effect_of_exec_running h hr)
  · exact fun hp h => effect_jeq_pc hp (effect_of_exec_running h hr)
  · exact fun hp h => effect_jne_pc hp (effect_of_exec_running h hr)
  · intro m s t u i ⟨hrun, hp⟩ hd ht hu
    have hstep := (step_of_decode hrun hp hd ht).symm.trans hu
    rw [Host.Outcome.next.injEq] at hstep
    rw [← hstep, advancePc_pc]

/-! ### Conditional jumps -/

/-- An instruction whose effect is a jump to a byte completes, leaves that byte in pc and changes nothing else. -/
theorem exec_jump_of_effect {i : Instr} {s : State} {v : Byte} (h : Effect i s (jumpTo v s)) :
    ∃ t, exec i s = .next t ∧ t.pc.toNat = v.toNat ∧ Frame { pc := true } s t :=
  ⟨_, exec_of_effect h, jumpTo_pc_toNat v s, frame_jumpTo v s⟩

/-- An instruction whose effect is a jump not taken completes, goes to `p_pc + 2` and changes nothing else. -/
theorem exec_skip_of_effect {i : Instr} {s : State} (hp : s.pc.toNat ≤ 253) (h : Effect i s (skipJump s)) :
    ∃ t, exec i s = .next t ∧ t.pc.toNat = s.pc.toNat + 2 ∧ Frame { pc := true } s t :=
  ⟨_, exec_of_effect h, skipJump_pc_toNat hp, frame_skipJump s⟩

/-- Settles O35: E picks the branch of each jump's effect, and only the taken branch asks for a written register. -/
theorem conditionalJumpsFollowE : Obligations.ConditionalJumpsFollowE := fun r _ hf hp =>
  ⟨fun hE hw => exec_jump_of_effect ⟨r, rfl, hf, .inl ⟨hE, hw, rfl⟩⟩,
   fun hE => exec_skip_of_effect hp ⟨r, rfl, hf, .inr ⟨hE, rfl⟩⟩,
   fun hE hw => exec_jump_of_effect ⟨r, rfl, hf, .inl ⟨hE, hw, rfl⟩⟩,
   fun hE => exec_skip_of_effect hp ⟨r, rfl, hf, .inr ⟨hE, rfl⟩⟩⟩

/-! ### The first fetch -/

theorem loadImage_eq_some {image : List Byte} {s : State} (h : loadImage image = some s) :
    image.length ≤ Config.memSize ∧
      s = { State.reset with mem := Memory.writeBytes State.reset.mem 0 image } := by
  unfold loadImage at h
  split at h
  · rename_i hlen
    exact ⟨hlen.2, (Option.some.inj h).symm⟩
  · cases h

/-- A loaded state reads as its image from address 0, and as zero beyond it (R183). -/
theorem read_loadImage {image : List Byte} {s : State} (h : loadImage image = some s) (k : Nat) :
    Memory.read s.mem k = image.getD k 0 := by
  obtain ⟨hlen, rfl⟩ := loadImage_eq_some h
  have hread := Memory.read_writeBytes Memory.wf_nil (a := 0) (vs := image) (by omega) k
  refine hread.trans ?_
  split
  · rfl
  · rw [List.getD_eq_default _ _ (by omega)]
    rfl

theorem loadImage_pc {image : List Byte} {s : State} (h : loadImage image = some s) : s.pc = 0 := by
  obtain ⟨-, rfl⟩ := loadImage_eq_some h
  rfl

theorem loadImage_canFetch {image : List Byte} {s : State} (h : loadImage image = some s) : s.CanFetch := by
  refine ⟨?_, by simp [loadImage_pc h]⟩
  obtain ⟨-, rfl⟩ := loadImage_eq_some h
  rfl

/-- Settles O52: a loaded state fetches from pc 0, where its memory reads as the image. -/
theorem firstFetchIsFromAddressZero : Obligations.FirstFetchIsFromAddressZero := by
  intro m image s h
  have hpc := loadImage_pc h
  have hmem : Memory.read s.mem = fun k => image.getD k 0 := funext (read_loadImage h)
  obtain ⟨t, ht, hlatched⟩ := step_latches_window m (loadImage_canFetch h)
  rw [hmem, hpc] at hlatched
  obtain ⟨hir, ha, hb⟩ := hlatched
  refine ⟨t, ht, hir, ha, hb, ?_⟩
  rw [State.instrAt, hmem, hpc]
  rfl

end Sys2Proof.Machine
end

section
/-! Proofs of the statements on HLT, LDI, PRN and ST (spec/41_general.md R110-R113), and on the block's output event
(spec/70_reset_and_hazards.md R184). -/

namespace Sys2Proof.Machine

/-! ### One instruction -/

/-- Settles O26: HLT's effect. -/
theorem hltHalts : Obligations.HltHalts := fun _ => exec_of_effect (i := .hlt) rfl

/-- Settles O27, by LDI's effect and the frame of a register write. -/
theorem ldiLoadsTheImmediate : Obligations.LdiLoadsTheImmediate := fun r imm s =>
  ⟨writeReg r imm s, exec_of_effect ⟨r, rfl, rfl⟩, reg_writeReg_same s r imm, isWritten_writeReg_same s r imm,
    frame_writeReg r imm s⟩

/-- Settles O28, by PRN's effect and the frame of `emit`. -/
theorem prnEmitsTheRegister : Obligations.PrnEmitsTheRegister := fun r s hw =>
  ⟨emit (s.reg r) s, exec_of_effect ⟨r, rfl, hw, rfl⟩, rfl, frame_emit _ s⟩

/-- Settles O29, by ST's effect, the read after a write in canonical memory and the frame of a store. -/
theorem stStoresAtTheRegister : Obligations.StStoresAtTheRegister := fun a b s hwf ha hb =>
  ⟨storeByte (s.reg a).toNat (s.reg b) s, exec_of_effect ⟨a, b, rfl, rfl, ha, hb, rfl⟩,
    Memory.read_write_same hwf _ _, frame_storeByte _ _ s⟩

/-! ### LDI and then PRN -/

/-- An instruction has one outcome, so where its effect is possible it answers no other state. -/
theorem exec_eq_of_effect {i : Instr} {s t u : State} (h : exec i s = .next t) (he : Effect i s u) : t = u :=
  Host.Outcome.next.inj (h.symm.trans (exec_of_effect he))

/-- Settles O49: LDI leaves the register written, so PRN emits it. -/
theorem ldiThenPrnEmitsTheImmediate : Obligations.LdiThenPrnEmitsTheImmediate := by
  intro r v s t u hldi hprn
  obtain rfl : t = writeReg r v s := exec_eq_of_effect hldi ⟨r, rfl, rfl⟩
  have hu : u = emit ((writeReg r v s).reg r) (writeReg r v s) :=
    exec_eq_of_effect hprn ⟨r, rfl, isWritten_writeReg_same s r v, rfl⟩
  simp [hu]

/-! ### The output event -/

theorem outEvent_of_output_eq {s t : State} (h : t.output = s.output) : outEvent s t = none := by
  simp [outEvent, h]

theorem outEvent_of_output_append {s t : State} {v : Byte} (h : t.output = s.output ++ [v]) :
    outEvent s t = some v := by
  simp [outEvent, h]

theorem exec_output_cases {i : Instr} {s t : State} (h : exec i s = .next t) :
    t.output = s.output ∨ ∃ r, i = .prn (regByte r) ∧ s.isWritten r = true := by
  by_cases hi : ∃ b, i = .prn b
  · obtain ⟨b, rfl⟩ := hi
    rcases exec_cases h with ⟨r, rfl, hw, -⟩ | ⟨c, -, rfl⟩
    · exact .inr ⟨r, rfl, hw⟩
    · exact .inl rfl
  · exact .inl (exec_output_of_ne_prn (not_exists.1 hi) h)

theorem step_output_cases {m : OpcodeMap} {s t : State} (h : stepWith m s = .next t) :
    t.output = s.output ∨
      ∃ r : RegIndex, s.CanFetch ∧ s.instrAt m = .ok (.prn (regByte r)) ∧ s.isWritten r = true := by
  obtain ⟨hr, ⟨-, rfl⟩ | ⟨-, c, -, rfl⟩ | ⟨hp, i, u, hd, hu, rfl⟩⟩ := step_cases h
  · exact .inl rfl
  · exact .inl rfl
  · rw [advancePc_output]
    refine (exec_output_cases hu).imp_right ?_
    rintro ⟨r, rfl, hw⟩
    exact ⟨r, ⟨hr, hp⟩, hd, hw⟩

/-- A step that runs PRN of a written register appends its value (R112): the latched state has the same registers and
output, and the engine's advance leaves the output alone. -/
theorem step_output_of_prn {m : OpcodeMap} {s t : State} {r : RegIndex} (hf : s.CanFetch)
    (hd : s.instrAt m = .ok (.prn (regByte r))) (hw : s.isWritten r = true) (h : stepWith m s = .next t) :
    t.output = s.output ++ [s.reg r] := by
  obtain ⟨hr, hp⟩ := hf
  have hstep := step_of_decode hr hp hd (exec_of_effect (s := latch s) ⟨r, rfl, hw, rfl⟩)
  rw [Host.Outcome.next.inj (h.symm.trans hstep)]
  simp

/-- Settles O55: PRN of a written register appends one value, and a step that runs no such PRN leaves the output as it
was. -/
theorem oneOutputEventPerPrn : Obligations.OneOutputEventPerPrn := fun _ _ _ h =>
  ⟨fun _ hf hd hw => outEvent_of_output_append (step_output_of_prn hf hd hw h),
   fun hno => outEvent_of_output_eq ((step_output_cases h).resolve_right hno)⟩

end Sys2Proof.Machine
end

section
/-! Proofs of the statements on PUSH, POP and the stack's two faults (spec/42_stack.md R120-R122; spec/60_exceptions.md
R156, R157). -/

namespace Sys2Proof.Machine

/-! ### The state a push leaves -/

/-- The state after a push of `v` that does not fault: SP one down, `v` at the new SP (R120). -/
def pushed (v : Byte) (s : State) : State := storeByte (s.sp - 1).toNat v (writeReg Config.spIndex (s.sp - 1) s)

@[simp] theorem pushed_sp (v : Byte) (s : State) : (pushed v s).sp = s.sp - 1 :=
  reg_writeReg_same s 7 (s.sp - 1)

@[simp] theorem pushed_isWritten_sp (v : Byte) (s : State) : (pushed v s).isWritten 7 = true :=
  isWritten_writeReg_same s 7 (s.sp - 1)

theorem read_pushed {s : State} (hwf : Memory.wf s.mem) (v : Byte) :
    Memory.read (pushed v s).mem (s.sp - 1).toNat = v :=
  Memory.read_write_same hwf _ _

theorem frame_pushed (v : Byte) (s : State) : Frame { regs := [7], mem := [(s.sp - 1).toNat] } s (pushed v s) :=
  (frame_writeReg 7 (s.sp - 1) s).trans (frame_storeByte (s.sp - 1).toNat v _)

theorem effect_push_iff {r : RegIndex} {s t : State} : Effect (.push (regByte r)) s t ↔
    s.isWritten r = true ∧ s.isWritten 7 = true ∧ s.sp ≠ 0 ∧ t = pushed (s.reg r) s := by
  constructor
  · rintro ⟨q, hq, h⟩
    obtain rfl := regByte_injective hq
    exact h
  · exact fun h => ⟨r, rfl, h⟩

/-! ### The state a pop leaves -/

/-- The state after a POP into `r` that does not fault: SP one up, and then `r` written with the byte at the old SP
(R121). -/
def popped (r : RegIndex) (s : State) : State :=
  writeReg r (Memory.read s.mem s.sp.toNat) (writeReg Config.spIndex (s.sp + 1) s)

@[simp] theorem popped_reg (r : RegIndex) (s : State) : (popped r s).reg r = Memory.read s.mem s.sp.toNat :=
  reg_writeReg_same _ r _

@[simp] theorem popped_isWritten (r : RegIndex) (s : State) : (popped r s).isWritten r = true :=
  isWritten_writeReg_same _ r _

theorem popped_sp {r : RegIndex} (hr : r ≠ 7) (s : State) : (popped r s).sp = s.sp + 1 := by
  rw [State.sp, popped, reg_writeReg_ne _ hr.symm, reg_writeReg_same]

theorem popped_isWritten_sp {r : RegIndex} (hr : r ≠ 7) (s : State) : (popped r s).isWritten 7 = true := by
  rw [popped, isWritten_writeReg_ne _ hr.symm, isWritten_writeReg_same]

@[simp] theorem popped_mem (r : RegIndex) (s : State) : (popped r s).mem = s.mem := rfl

theorem effect_pop_iff {r : RegIndex} {s t : State} : Effect (.pop (regByte r)) s t ↔
    s.isWritten 7 = true ∧ s.sp ≠ 255 ∧ t = popped r s := by
  constructor
  · rintro ⟨q, hq, h⟩
    obtain rfl := regByte_injective hq
    exact h
  · exact fun h => ⟨r, rfl, h⟩

/-! ### PUSH and POP (R120, R121) -/

/-- Settles O30: PUSH leaves the pushed state, and above SP = 0 the new SP does not wrap. -/
theorem pushStoresBelowSp : Obligations.PushStoresBelowSp := by
  intro r s hwf h7 hr h0
  rw [← toNat_sub_one h0]
  exact ⟨pushed (s.reg r) s, exec_of_effect (effect_push_iff.2 ⟨hr, h7, h0, rfl⟩), by rw [pushed_sp],
    read_pushed hwf _, pushed_isWritten_sp _ s, frame_pushed _ s⟩

/-- Settles O31: POP leaves the popped state, and below SP = 255 the new SP does not wrap. -/
theorem popLoadsFromSp : Obligations.PopLoadsFromSp := by
  intro r s h7 h255
  have heff : Effect (.pop (regByte r)) s (popped r s) := effect_pop_iff.2 ⟨h7, h255, rfl⟩
  refine ⟨popped r s, exec_of_effect heff, popped_reg r s, popped_isWritten r s,
    fun hr => ⟨?_, popped_isWritten_sp hr s⟩, ?_⟩
  · rw [popped_sp hr, toNat_add_one h255]
  · simpa [footprint] using effect_frame heff

/-! ### The push-pop law (R122) -/

/-- What a POP reads right after a push is the pushed byte. -/
theorem popped_pushed_reg {s : State} (hwf : Memory.wf s.mem) (r : RegIndex) (v : Byte) :
    (popped r (pushed v s)).reg r = v := by
  rw [popped_reg, pushed_sp, read_pushed hwf]

theorem popped_pushed_sp {r : RegIndex} (hr : r ≠ 7) (v : Byte) (s : State) : (popped r (pushed v s)).sp = s.sp := by
  rw [popped_sp hr, pushed_sp, BitVec.sub_add_cancel]

theorem read_pushed_ne {s : State} (h0 : s.sp ≠ 0) (v : Byte) {a : Nat} (ha : a ≠ s.sp.toNat - 1) :
    Memory.read (pushed v s).mem a = Memory.read s.mem a :=
  Memory.read_write_ne (by rwa [toNat_sub_one h0]) v s.mem

/-- Settles O47: SP comes back by the pop's increment, or, where both registers are R7, as the value popped. -/
theorem pushPopLaw : Obligations.PushPopLaw := by
  intro r r2 s t u hwf _ hpush ht hpop hu hr
  obtain ⟨-, -, h0, rfl⟩ := effect_push_iff.1 (effect_of_exec_running hpush ht)
  obtain ⟨-, -, rfl⟩ := effect_pop_iff.1 (effect_of_exec_running hpop hu)
  refine ⟨popped_pushed_reg hwf r2 _, ?_, fun a ha => by rw [popped_mem, read_pushed_ne h0 _ ha]⟩
  by_cases hr2 : r2 = 7
  · obtain rfl : r = 7 := hr.resolve_left (not_not.2 hr2)
    rw [hr2]
    exact popped_pushed_reg hwf 7 _
  · exact popped_pushed_sp hr2 _ s

/-! ### The stack's faults (R156, R157) -/

theorem pushByte_overflow (v : Byte) {s : State} (h7 : s.isWritten 7 = true) (h0 : s.sp = 0) :
    pushByte v s = .error .stackOverflow := by
  rw [pushByte_eq, if_neg (by simp [h7]), if_pos h0]

theorem popByte_underflow {s : State} (h7 : s.isWritten 7 = true) (h255 : s.sp = 255) :
    popByte s = .error .stackUnderflow := by
  rw [popByte_eq, if_neg (by simp [h7]), if_pos h255]

/-- Settles O45: both handlers read their register and then push. -/
theorem stackOverflowFaults : Obligations.StackOverflowFaults := by
  intro r s h7 hr h0
  constructor
  · simp only [exec, execPush, readOne_written hr, ok_bind, pushByte_overflow _ h7 h0, finish_error, takeFault]
  · simp only [exec, execCall, readOne_written hr, ok_bind, pushByte_overflow _ h7 h0, error_bind, finish_error,
      takeFault]

/-- Settles O46: POP checks its index and then pops; RET pops at once. -/
theorem stackUnderflowFaults : Obligations.StackUnderflowFaults := by
  intro r s h7 h255
  constructor
  · simp only [exec, execPop, ridx_regByte, ok_bind, popByte_underflow h7 h255, error_bind, finish_error, takeFault]
  · exact finish_bind_error (popByte_underflow h7 h255) _ s

end Sys2Proof.Machine
end

section
/-! Proofs of the statements on CALL, RET and JMP (spec/43_control.md R130-R132, R135). -/

namespace Sys2Proof.Machine

/-! ### JMP (R132, R135) -/

/-- Settles O34: JMP's effect is a jump to the register's value. -/
theorem jmpJumpsToTheRegister : Obligations.JmpJumpsToTheRegister := fun r _ hw =>
  exec_jump_of_effect ⟨r, rfl, hw, rfl⟩

/-! ### The state a CALL leaves -/

/-- At a pc a fetch admits, `p_pc + 2` fits in a byte (R91). -/
theorem returnAddress_toNat {s : State} (hp : s.pc.toNat ≤ 253) : (returnAddress s).toNat = s.pc.toNat + 2 := by
  rw [returnAddress, BitVec.toNat_ofNat, Nat.mod_eq_of_lt (by omega)]

/-- The state after a CALL through `r` that does not fault: `p_pc + 2` pushed, pc at the register's old value (R130). -/
def called (r : RegIndex) (s : State) : State := jumpTo (s.reg r) (pushed (returnAddress s) s)

@[simp] theorem called_sp (r : RegIndex) (s : State) : (called r s).sp = s.sp - 1 :=
  pushed_sp (returnAddress s) s

@[simp] theorem called_isWritten_sp (r : RegIndex) (s : State) : (called r s).isWritten 7 = true :=
  pushed_isWritten_sp (returnAddress s) s

/-- A CALL leaves its return address at the new SP. -/
theorem read_called {s : State} (hwf : Memory.wf s.mem) (r : RegIndex) :
    Memory.read (called r s).mem (s.sp - 1).toNat = returnAddress s :=
  read_pushed hwf _

theorem effect_call_iff {r : RegIndex} {s t : State} : Effect (.call (regByte r)) s t ↔
    s.isWritten r = true ∧ s.isWritten 7 = true ∧ s.sp ≠ 0 ∧ t = called r s := by
  constructor
  · rintro ⟨q, hq, h⟩
    obtain rfl := regByte_injective hq
    exact h
  · exact fun h => ⟨r, rfl, h⟩

/-- Settles O32: CALL leaves the called state, and above SP = 0 the new SP does not wrap. -/
theorem callPushesTheReturnAddress : Obligations.CallPushesTheReturnAddress := by
  intro r s hwf h7 hr h0 hp
  have heff : Effect (.call (regByte r)) s (called r s) := effect_call_iff.2 ⟨hr, h7, h0, rfl⟩
  rw [← toNat_sub_one h0]
  exact ⟨called r s, exec_of_effect heff, effect_call_pc heff, by rw [called_sp], called_isWritten_sp r s,
    by rw [read_called hwf, returnAddress_toNat hp], effect_frame heff⟩

/-! ### The state a RET leaves -/

/-- The state after a RET that does not fault: SP one up, pc at the byte at the old SP (R131). -/
def returned (s : State) : State :=
  jumpTo (Memory.read s.mem s.sp.toNat) (writeReg Config.spIndex (s.sp + 1) s)

@[simp] theorem returned_sp (s : State) : (returned s).sp = s.sp + 1 := reg_writeReg_same s 7 (s.sp + 1)

@[simp] theorem returned_isWritten_sp (s : State) : (returned s).isWritten 7 = true :=
  isWritten_writeReg_same s 7 (s.sp + 1)

@[simp] theorem returned_run (s : State) : (returned s).run = s.run := rfl

theorem returned_pc_toNat (s : State) : (returned s).pc.toNat = (Memory.read s.mem s.sp.toNat).toNat :=
  jumpTo_pc_toNat _ _

theorem effect_ret {s : State} (h7 : s.isWritten 7 = true) (h255 : s.sp ≠ 255) : Effect .ret s (returned s) :=
  ⟨h7, h255, rfl⟩

/-- Settles O33: RET leaves the returned state, and below SP = 255 the new SP does not wrap. -/
theorem retJumpsToThePoppedByte : Obligations.RetJumpsToThePoppedByte := by
  intro s h7 h255
  have heff := effect_ret h7 h255
  exact ⟨returned s, exec_of_effect heff, returned_pc_toNat s, by rw [returned_sp, toNat_add_one h255],
    returned_isWritten_sp s, effect_frame heff⟩

/-! ### The call-return law -/

/-- The SP a push leaves is below 255, so a pop there does not underflow. -/
theorem sub_one_ne_255 {b : Byte} (h : b ≠ 0) : b - 1 ≠ 255 := by
  have hlt := b.isLt
  have hsub := toNat_sub_one h
  intro h255
  rw [h255, show (255 : Byte).toNat = 255 from rfl] at hsub
  omega

/-- Settles O48: the CALL left `p_pc + 2` at an SP below 255, so the RET completes, jumps there and undoes the
decrement. -/
theorem callRetLaw : Obligations.CallRetLaw := by
  intro r s t u v hwf _ hp hcall ht hu husp h7 hbyte hret
  obtain ⟨-, -, h0, rfl⟩ := effect_call_iff.1 (effect_of_exec_running hcall ht)
  rw [called_sp] at husp hbyte
  rw [read_called hwf] at hbyte
  have h255 : u.sp ≠ 255 := husp ▸ sub_one_ne_255 h0
  obtain rfl : v = returned u := exec_eq_of_effect hret (effect_ret h7 h255)
  refine ⟨(returned_run u).trans hu, ?_, ?_⟩
  · rw [returned_pc_toNat, hbyte, returnAddress_toNat hp]
  · rw [returned_sp, husp, BitVec.sub_add_cancel]

end Sys2Proof.Machine
end

section
/-! Proofs of the statements on ADD, SUB, MUL and ADDI (spec/44_alu.md R140-R144). -/

namespace Sys2Proof.Machine

/-- What the four share, whatever value they write: the register ends up written, and nothing else changes. -/
theorem isWritten_frame_writeReg (r : RegIndex) (v : Byte) (s : State) :
    (writeReg r v s).isWritten r = true ∧ Frame { regs := [r] } s (writeReg r v s) :=
  ⟨isWritten_writeReg_same s r v, frame_writeReg r v s⟩

/-- Settles O36: each effect writes the first register with the ALU's result, which is the exact one modulo 256. -/
theorem addSubMulWrap : Obligations.AddSubMulWrap := fun a b s ha hb =>
  ⟨⟨_, exec_of_effect ⟨a, b, rfl, rfl, ha, hb, rfl⟩, by rw [reg_writeReg_same, addBytes_toNat],
      isWritten_frame_writeReg a _ s⟩,
    ⟨_, exec_of_effect ⟨a, b, rfl, rfl, ha, hb, rfl⟩, by rw [reg_writeReg_same, subBytes_toNat],
      isWritten_frame_writeReg a _ s⟩,
    ⟨_, exec_of_effect ⟨a, b, rfl, rfl, ha, hb, rfl⟩, by rw [reg_writeReg_same, mulBytes_toNat],
      isWritten_frame_writeReg a _ s⟩⟩

/-- Settles O37: ADDI's effect writes its register with the exact sum modulo 256. -/
theorem addiWraps : Obligations.AddiWraps := fun r _ s hw =>
  ⟨_, exec_of_effect ⟨r, rfl, hw, rfl⟩, by rw [reg_writeReg_same, addBytes_toNat], isWritten_frame_writeReg r _ s⟩

end Sys2Proof.Machine
end

section
/-! Proofs of the statements on faults and their codes (spec/60_exceptions.md R150-R162). -/

namespace Sys2Proof.Machine

/-! ### What a fault leaves (R150, R159, R161) -/

/-- A fault of a Running core's instruction is a handler's, taken on the state the handler found. -/
theorem exec_faulted {i : Instr} {s t : State} {c : FaultCause} (hs : s.run = .running) (h : exec i s = .next t)
    (ht : t.run = .faulted c) : HandlerCause c ∧ t = takeFault c s := by
  rcases exec_cases h with he | ⟨d, hd, rfl⟩
  · by_cases hi : i = .hlt
    · rw [(exec_halted_iff hs h).2 hi] at ht
      cases ht
    · rw [effect_run_of_ne_hlt hi he, hs] at ht
      cases ht
  · cases ht
    exact ⟨hd, rfl⟩

/-- A fault of a step, by where it is raised: at the fetch it is taken on the state the step found, at dispatch or in a
handler on that state with the latches filled (R150, R160). -/
theorem step_faulted {m : OpcodeMap} {s t : State} {c : FaultCause} (h : stepWith m s = .next t)
    (ht : t.run = .faulted c) :
    (c = .fetchOutOfRange ∧ t = takeFault c s) ∨
      ((c = .unsupportedOperation ∨ c = .unsupportedAluOperation ∨ HandlerCause c) ∧ t = takeFault c (latch s)) := by
  obtain ⟨hr, ⟨-, rfl⟩ | ⟨-, d, hd, rfl⟩ | ⟨-, i, u, -, hu, rfl⟩⟩ := step_cases h
  · cases ht
    exact .inl ⟨rfl, rfl⟩
  · cases ht
    exact .inr ⟨(cause_of_decodeWith hd).imp_right .inl, rfl⟩
  · rw [advancePc_run] at ht
    obtain ⟨hc, hu'⟩ := exec_faulted (s := latch s) hr hu ht
    rw [advancePc_not_running (by rw [ht]; nofun)]
    exact .inr ⟨.inr (.inr hc), hu'⟩

/-- Settles O14: the fault is taken on the state the step found or on its latched form. -/
theorem faultsArePrecise : Obligations.FaultsArePrecise := by
  intro m s t c h ht
  rcases step_faulted h ht with ⟨-, rfl⟩ | ⟨-, rfl⟩ <;> rfl

theorem memRead_eq_error_iff {a : Nat} {s : State} {c : FaultCause} :
    memRead a s = .error c ↔ 255 < a ∧ c = .memoryAddressOutOfRange := by
  unfold memRead
  split <;> simp [*, eq_comm]

theorem memWrite_eq_error_iff {a : Nat} {v : Byte} {s : State} {c : FaultCause} :
    memWrite a v s = .error c ↔ 255 < a ∧ c = .memoryAddressOutOfRange := by
  unfold memWrite
  split <;> simp [*, eq_comm]

/-- Settles O15: the cause is none of the fetch's, the dispatch's or a handler's. -/
theorem dataAddressFaultIsUnreachable : Obligations.DataAddressFaultIsUnreachable := by
  refine ⟨fun a v s => ⟨by simp [memRead_eq_error_iff], by simp [memWrite_eq_error_iff]⟩, fun m s t h ht => ?_⟩
  rcases step_faulted h ht with ⟨hc, -⟩ | ⟨hc, -⟩
  · cases hc
  · simp [HandlerCause] at hc

/-! ### Bad register indices (R155): what the operand reads raise -/

/-- All bytes of a list are register indices (R73). -/
def validIndices (l : List Byte) : Bool := l.all fun b => b.toNat < Config.nregs

theorem wellFormed_eq (i : Instr) : i.wellFormed = validIndices i.registerOperands := rfl

theorem validIndices_eq_false {l : List Byte} : validIndices l = false ↔ ∃ b ∈ l, 8 ≤ b.toNat := by
  simp only [validIndices, List.all_eq_false, decide_eq_true_eq, not_lt]
  rfl

theorem ridx_badIndex_iff {b : Byte} : ridx b = .error .registerIndexOutOfRange ↔ validIndices [b] = false := by
  simp [ridx_eq_error, validIndices_eq_false]

theorem readOne_badIndex_iff {b : Byte} {s : State} :
    readOne b s = .error .registerIndexOutOfRange ↔ validIndices [b] = false := by
  simp [readOne_eq_error, validIndices_eq_false]

/-- Both indices are checked before either register is read (R160). -/
theorem readPair_badIndex_iff {a b : Byte} {s : State} :
    readPair a b s = .error .registerIndexOutOfRange ↔ validIndices [a, b] = false := by
  cases ha : ridx a with
  | error c =>
    obtain ⟨h8, rfl⟩ := ridx_eq_error.1 ha
    simp [readPair, ha, validIndices_eq_false, h8]
  | ok ra =>
    obtain rfl := ridx_eq_ok.1 ha
    have hlt : (regByte ra).toNat < 8 := regByte_toNat ra ▸ ra.isLt
    simp [readPair, bind_eq_error, ridx_eq_error, readReg_eq_error, validIndices_eq_false, hlt]

/-- An instruction reads its register operands before anything else (R73, R160). -/
theorem exec_of_badIndex {i : Instr} (h : i.wellFormed = false) (s : State) :
    exec i s = .next (takeFault .registerIndexOutOfRange s) := by
  rw [wellFormed_eq] at h
  cases i with
  | hlt | ret => cases h
  | ldi r _ | pop r | jeq r | jne r => exact finish_bind_error (ridx_badIndex_iff.2 h) _ s
  | prn r | push r | call r | jmp r | addi r _ => exact finish_bind_error (readOne_badIndex_iff.2 h) _ s
  | st a b | add a b | sub a b | mul a b | cmp a b => exact finish_bind_error (readPair_badIndex_iff.2 h) _ s

/-! ### Bad register indices (R155): what a handler does with valid operands -/

/-- A handler's result is neither the fault `c` nor a state Faulted by it. -/
inductive AvoidsFault (c : FaultCause) : Except FaultCause State → Prop
  | ok {t : State} (h : t.run ≠ .faulted c) : AvoidsFault c (.ok t)
  | error {d : FaultCause} (h : d ≠ c) : AvoidsFault c (.error d)

section
variable {c : FaultCause} {s : State}

theorem run_ne_of_avoidsFault {x : Except FaultCause State} {t : State} (ht : finish s x = .next t)
    (hx : AvoidsFault c x) : t.run ≠ .faulted c := by
  cases hx with
  | ok h => exact finish_ok_eq_next ht ▸ h
  | error h =>
    obtain rfl : takeFault _ s = t := Host.Outcome.next.inj ht
    simpa using h

theorem AvoidsFault.bind_of_ne {α : Type} {x : Except FaultCause α} {f : α → Except FaultCause State}
    (hx : x ≠ .error c) (hf : ∀ a, AvoidsFault c (f a)) : AvoidsFault c (x >>= f) := by
  cases x with
  | ok a => exact hf a
  | error d => exact .error fun e => hx (congrArg _ e)

theorem AvoidsFault.bind {x : Except FaultCause State} {f : State → Except FaultCause State} (hx : AvoidsFault c x)
    (hf : ∀ t, t.run ≠ .faulted c → AvoidsFault c (f t)) : AvoidsFault c (x >>= f) := by
  cases hx with
  | ok h => exact hf _ h
  | error h => exact .error h

theorem AvoidsFault.ite {p : Prop} [Decidable p] {x y : Except FaultCause State} (hx : AvoidsFault c x)
    (hy : AvoidsFault c y) : AvoidsFault c (if p then x else y) := by
  split
  · exact hx
  · exact hy

end

/-! The reads a handler makes after its operands' check name no index. -/

theorem readReg_ne_badIndex (r : RegIndex) (s : State) : readReg r s ≠ .error .registerIndexOutOfRange := by
  simp [readReg_eq_error]

theorem readFl_ne_badIndex (s : State) : readFl s ≠ .error .registerIndexOutOfRange := by
  simp [readFl_eq_error]

section
variable {s : State} (hs : s.run ≠ .faulted .registerIndexOutOfRange)
include hs

theorem pushByte_avoids_badIndex (v : Byte) : AvoidsFault .registerIndexOutOfRange (pushByte v s) := by
  refine .bind_of_ne (readReg_ne_badIndex _ s) fun sp => .ite (.error nofun) ?_
  rw [memWrite_byte]
  exact .ok hs

theorem popByte_bind_avoids_badIndex {f : Byte × State → Except FaultCause State}
    (hf : ∀ v t, t.run ≠ .faulted .registerIndexOutOfRange → AvoidsFault .registerIndexOutOfRange (f (v, t))) :
    AvoidsFault .registerIndexOutOfRange (popByte s >>= f) := by
  rw [popByte_bind_eq]
  exact .bind_of_ne (readReg_ne_badIndex _ s) fun sp => .ite (.error nofun) (hf _ _ hs)

theorem conditionalJump_avoids_badIndex (k : Bool) {b : Byte} (hb : validIndices [b] ≠ false) :
    AvoidsFault .registerIndexOutOfRange (conditionalJump k b s) :=
  .bind_of_ne (mt ridx_badIndex_iff.1 hb) fun i => .bind_of_ne (readFl_ne_badIndex s) fun _ =>
    .ite (.bind_of_ne (readReg_ne_badIndex i s) fun _ => .ok hs) (.ok hs)

theorem aluPair_avoids_badIndex (g : Byte → Byte → Byte) {a b : Byte} (hab : validIndices [a, b] ≠ false) :
    AvoidsFault .registerIndexOutOfRange (aluPair g a b s) :=
  .bind_of_ne (mt readPair_badIndex_iff.1 hab) fun _ => .ok hs

/-- With valid operands the index check passes, and nothing after it raises the fault (R155). -/
theorem exec_run_ne_badIndex {i : Instr} (hi : i.wellFormed ≠ false) {t : State} (ht : exec i s = .next t) :
    t.run ≠ .faulted .registerIndexOutOfRange := by
  rw [wellFormed_eq] at hi
  cases i with
  | hlt => exact run_ne_of_avoidsFault (s := s) (x := .ok (halt s)) ht (.ok nofun)
  | ldi r imm => exact run_ne_of_avoidsFault ht (.bind_of_ne (mt ridx_badIndex_iff.1 hi) fun _ => .ok hs)
  | prn r => exact run_ne_of_avoidsFault ht (.bind_of_ne (mt readOne_badIndex_iff.1 hi) fun _ => .ok hs)
  | st a b =>
    refine run_ne_of_avoidsFault ht (.bind_of_ne (mt readPair_badIndex_iff.1 hi) fun _ => ?_)
    simp only [memWrite_byte]
    exact .ok hs
  | push r =>
    exact run_ne_of_avoidsFault ht (.bind_of_ne (mt readOne_badIndex_iff.1 hi) fun _ => pushByte_avoids_badIndex hs _)
  | pop r =>
    exact run_ne_of_avoidsFault ht (.bind_of_ne (mt ridx_badIndex_iff.1 hi) fun q =>
      popByte_bind_avoids_badIndex hs fun v u hu => .ok (t := writeReg q v u) hu)
  | call r =>
    exact run_ne_of_avoidsFault ht (.bind_of_ne (mt readOne_badIndex_iff.1 hi) fun _ =>
      (pushByte_avoids_badIndex hs _).bind fun _ hu => .ok hu)
  | ret =>
    exact run_ne_of_avoidsFault ht (popByte_bind_avoids_badIndex hs fun v u hu => .ok (t := jumpTo v u) hu)
  | jmp r => exact run_ne_of_avoidsFault ht (.bind_of_ne (mt readOne_badIndex_iff.1 hi) fun _ => .ok hs)
  | jeq r => exact run_ne_of_avoidsFault ht (conditionalJump_avoids_badIndex hs true hi)
  | jne r => exact run_ne_of_avoidsFault ht (conditionalJump_avoids_badIndex hs false hi)
  | add a b => exact run_ne_of_avoidsFault ht (aluPair_avoids_badIndex hs addBytes hi)
  | addi r imm => exact run_ne_of_avoidsFault ht (.bind_of_ne (mt readOne_badIndex_iff.1 hi) fun _ => .ok hs)
  | sub a b => exact run_ne_of_avoidsFault ht (aluPair_avoids_badIndex hs subBytes hi)
  | mul a b => exact run_ne_of_avoidsFault ht (aluPair_avoids_badIndex hs mulBytes hi)
  | cmp a b => exact run_ne_of_avoidsFault ht (.bind_of_ne (mt readPair_badIndex_iff.1 hi) fun _ => .ok hs)

end

/-- Settles O42: the operand reads come first in every handler, and they alone check an index. -/
theorem badRegisterIndexFaults : Obligations.BadRegisterIndexFaults :=
  ⟨fun _ s hi => exec_of_badIndex hi s, fun _ s _ hs hi ht =>
    exec_run_ne_badIndex (s := s) (by rw [hs]; nofun) (by rw [hi]; nofun) ht⟩

/-! ### The host's view (R151, R162) -/

/-- Settles O53, by the table of `faultCode`. -/
theorem faultCodes : Obligations.FaultCodes := rfl

/-- Settles O54, by the three run states. (The function itself has the name `hostExitStatus`.) -/
theorem hostExitStatus_iff : Obligations.HostExitStatus := by
  intro s
  cases s.run <;> simp [hostExitStatus]

end Sys2Proof.Machine
end

section
/-! Proof of the statement on the host's load (spec/70_reset_and_hazards.md R183, R180). -/

namespace Sys2Proof.Machine

/-- The load accepts an image of 1..256 bytes, written into the reset state's memory (R183). -/
theorem loadImage_of_length {image : List Byte} (h : 1 ≤ image.length ∧ image.length ≤ Config.memSize) :
    loadImage image = some { State.reset with mem := Memory.writeBytes State.reset.mem 0 image } :=
  if_pos h

/-- The load refuses an empty image and one longer than memory (D18). -/
theorem loadImage_eq_none {image : List Byte} (h : image.length = 0 ∨ Config.memSize < image.length) :
    loadImage image = none :=
  if_neg (by omega)

/-- Settles O51: the two branches of the load; what the loaded memory reads is `read_loadImage`. -/
theorem loadPlacesTheImage : Obligations.LoadPlacesTheImage := fun image =>
  ⟨fun hlen =>
    have hload := loadImage_of_length (image := image) hlen
    ⟨_, hload, read_loadImage hload, rfl⟩,
   fun hlen => loadImage_eq_none hlen⟩

end Sys2Proof.Machine
end
